-- ==== Sys2Proof/Word.lean ====
section
/-! DEFINITION. The word types of the machine (spec 00_scope.md R8, R10): one byte of memory, and the 32-bit
unsigned value that every register, the pc, every address and every memory word is. -/

namespace Sys2Proof

/-- One byte of memory (10_state.md R31). -/
abbrev Byte := BitVec 8

/-- `u32`: a register, the pc, an address or a memory word. Addition wraps modulo 2^32 (00_scope.md R10). -/
abbrev Word := BitVec 32

/-- The 16-bit field `off` of an instruction word, as it stands in the word (30_encoding.md R53). -/
abbrev Half := BitVec 16

/-- A 5-bit register field: it always names one of `r0` .. `r31` (10_state.md R24). -/
abbrev RegIdx := BitVec 5

end Sys2Proof
end

