-- ==== Sys2Proof/Config.lean ====
section
/-! DEFINITION. What the spec fixes once for the machine (00_scope.md R8). The two OPEN parameters, `MEM_LEN` and
`REG_INIT` (R9), are no constants here: they are arguments of `Machine.State.launch`, and `MEM_LEN` is held by the
state. What `Machine.State.reset` puts in their place stands in Machine/ResetValues.lean. -/

namespace Sys2Proof.Config

/-- `ENTRY`: the load address of the image and the initial pc (R8, R122). -/
def entry : Word := 0x800#32

/-- How many bytes the pc advances by after a successful instruction (R64, R72). -/
def instrBytes : Word := 4#32

/-- The upper bound of `MEM_LEN` (10_state.md R31). -/
def maxMemLen : Nat := 2 ^ 32

/-- What a byte of memory that nothing has written reads as: the reset contents (10_state.md R33, §6 of the source:
"all other bytes are initialized to 0"). -/
def unlistedByte : Byte := 0

/-- The exit status of every run that ends (60_exceptions.md R117). -/
def haltExitStatus : Int := -1

end Sys2Proof.Config
end

