-- ==== Sys2Proof/Syntax.lean ====
section
/-! DEFINITION. The decoded instruction (`Fields`) and the instruction set (`Instr`): one constructor per row of
spec/opcode_table.json. -/

namespace Sys2Proof

/-- The decoded instruction of 30_encoding.md R53: the five fields the decoder takes from every word, whatever its
opcode. `off` is held as the raw 16 bits; its signed reading is `Machine.sext32` (R56; log entry 6). -/
structure Fields where
  op  : BitVec 6
  ra1 : RegIdx
  ra2 : RegIdx
  ra3 : BitVec 8
  off : Half
  deriving DecidableEq, Repr

/-- The ten instructions of 30_encoding.md R60. Arguments stand in the order of the word's bits, the highest first.
`unused` holds the bits that the instruction's format does not use (R59): they change nothing the instruction does,
and are kept because the halt report latches the whole decoded instruction (10_state.md R30; log entry 5). -/
inductive Instr where
  /-- `NOP` (41_system.md R78). -/
  | nop (unused : BitVec 26)
  /-- `JMP rA, off` (42_control.md R80). -/
  | jmp (ra1 : RegIdx) (unused : BitVec 5) (off : Half)
  /-- `LW [rA], rD`: address register, destination (43_load_store.md R86). -/
  | lw (ra1 ra2 : RegIdx) (unused : BitVec 16)
  /-- `SW rV, [rA]`: value register, address register (43_load_store.md R87). -/
  | sw (ra1 ra2 : RegIdx) (unused : BitVec 16)
  /-- `LHI rA, imm16` (44_immediate.md R89). -/
  | lhi (ra1 : RegIdx) (unused : BitVec 5) (imm : Half)
  /-- `LUHI rA, imm16` (44_immediate.md R90). -/
  | luhi (ra1 : RegIdx) (unused : BitVec 5) (imm : Half)
  /-- `BNE rA, rB, off` (42_control.md R81). -/
  | bne (ra1 ra2 : RegIdx) (off : Half)
  /-- `MV rS, rD`: source, destination (45_register.md R92). -/
  | mv (ra1 ra2 : RegIdx) (unused : BitVec 16)
  /-- `ADD rA, rB, rD`: sources, bits 15:8, the 8-bit destination field (45_register.md R93). -/
  | add (ra1 ra2 : RegIdx) (unused ra3 : BitVec 8)
  /-- `BRK` (41_system.md R79). -/
  | brk (unused : BitVec 26)
  deriving DecidableEq, Repr

end Sys2Proof
end

