-- ==== Sys2Proof/WellFormed.lean ====
section
/-! DEFINITION. Which instructions name only registers that exist. -/

namespace Sys2Proof

/-- Every register operand names one of the 32 registers. `ra1` and `ra2` always do; ADD's 8-bit destination does so
below 32 only (10_state.md R24). An ADD outside this decodes (the decoder never fails, 30_encoding.md R54) and is
refused when it executes (45_register.md R93). -/
def Instr.wellFormed : Instr → Bool
  | .nop _ => true
  | .jmp _ _ _ => true
  | .lw _ _ _ => true
  | .sw _ _ _ => true
  | .lhi _ _ _ => true
  | .luhi _ _ _ => true
  | .bne _ _ _ => true
  | .mv _ _ _ => true
  | .add _ _ _ ra3 => decide (ra3.toNat < 32)
  | .brk _ => true

end Sys2Proof
end

