-- ==== Sys2Proof/Decode.lean ====
section
/-! DEFINITION. The decoder DEC, the opcode map that DISP selects by, and the encoder (30_encoding.md). -/

namespace Sys2Proof

/-- Four bytes as a word, the byte at the lowest address least significant: `b0 | b1 << 8 | b2 << 16 | b3 << 24`
(20_memory.md R38, R39). -/
def wordOfBytes (b0 b1 b2 b3 : Byte) : Word :=
  b0.zeroExtend 32 ||| (b1.zeroExtend 32 <<< 8) ||| (b2.zeroExtend 32 <<< 16) ||| (b3.zeroExtend 32 <<< 24)

/-- Byte `k` (0 .. 3) of a word: bits `8k+7 : 8k` (20_memory.md R38). -/
def byteOfWord (w : Word) (k : Nat) : Byte := w.extractLsb' (8 * k) 8

/-- The decoder of R53: pure and total, every field from every word (R54, R55). -/
def decodeFields (w : Word) : Fields where
  op  := w.extractLsb' 26 6
  ra1 := w.extractLsb' 21 5
  ra2 := w.extractLsb' 16 5
  ra3 := w.extractLsb' 0 8
  off := w.extractLsb' 0 16

/-- Why bytes are no instruction of the opcode map. -/
inductive Reject where
  /-- No executor is registered for this opcode value (R62); the machine halts with `UnknownOpcode`. -/
  | unknownOpcode (op : BitVec 6)
  /-- Fewer than the four bytes of an instruction (R64). Never raised by a fetch, which always reads a word. -/
  | truncated
  deriving DecidableEq, Repr

/-- The opcode map of R60: the instruction a word stands for, or the unknown opcode by its value (R62). -/
def decode (w : Word) : Except Reject Instr :=
  let f := decodeFields w
  match f.op.toNat with
  | 0 => .ok (.nop (w.extractLsb' 0 26))
  | 1 => .ok (.jmp f.ra1 f.ra2 f.off)
  | 2 => .ok (.lw f.ra1 f.ra2 f.off)
  | 3 => .ok (.sw f.ra1 f.ra2 f.off)
  | 4 => .ok (.lhi f.ra1 f.ra2 f.off)
  | 5 => .ok (.luhi f.ra1 f.ra2 f.off)
  | 6 => .ok (.bne f.ra1 f.ra2 f.off)
  | 7 => .ok (.mv f.ra1 f.ra2 f.off)
  | 8 => .ok (.add f.ra1 f.ra2 (w.extractLsb' 8 8) f.ra3)
  | 9 => .ok (.brk (w.extractLsb' 0 26))
  | _ => .error (.unknownOpcode f.op)

/-- Decoding from bytes, the lowest address first: the instruction and the bytes after it (R64: always four). -/
def decodeBytes : List Byte → Except Reject (Instr × List Byte)
  | b0 :: b1 :: b2 :: b3 :: rest => (decode (wordOfBytes b0 b1 b2 b3)).map (·, rest)
  | _ => .error .truncated

/-- The instruction read from the opcode table's bits `w`, the bits from `nbits` up taken as zero. -/
def decodeTableWord (nbits w : Nat) : Option Instr :=
  let word := BitVec.ofNat 32 (w % 2 ^ nbits)
  match decodeBytes [byteOfWord word 0, byteOfWord word 1, byteOfWord word 2, byteOfWord word 3] with
  | .ok (i, _) => some i
  | .error _ => none

/-- The opcode number of each instruction (R60, R61). -/
def Instr.opcode : Instr → BitVec 6
  | .nop _ => 0
  | .jmp _ _ _ => 1
  | .lw _ _ _ => 2
  | .sw _ _ _ => 3
  | .lhi _ _ _ => 4
  | .luhi _ _ _ => 5
  | .bne _ _ _ => 6
  | .mv _ _ _ => 7
  | .add _ _ _ _ => 8
  | .brk _ => 9

/-- `op << 26 | ra1 << 21 | ra2 << 16 | imm16` (R75). -/
def wordOfFields (op : BitVec 6) (ra1 ra2 : RegIdx) (imm16 : Half) : Word :=
  (op.zeroExtend 32 <<< 26) ||| (ra1.zeroExtend 32 <<< 21) ||| (ra2.zeroExtend 32 <<< 16) ||| imm16.zeroExtend 32

/-- The word of an opcode of format `N`, whose other 26 bits are all unused (R58, R59). -/
def wordOfOpcode (op : BitVec 6) (unused : BitVec 26) : Word := (op.zeroExtend 32 <<< 26) ||| unused.zeroExtend 32

/-- `word[15:0]` of ADD: the unused byte 15:8 and the destination field 7:0 (R59, R75). -/
def halfOfBytes (hi lo : BitVec 8) : Half := (hi.zeroExtend 16 <<< 8) ||| lo.zeroExtend 16

/-- The encoder (R75): the word of an instruction, its unused bits as the term carries them (the encoder of R75 is
this one on terms whose unused bits are zero, see `Instr.canonical`). -/
def encode (i : Instr) : Word :=
  match i with
  | .nop unused => wordOfOpcode i.opcode unused
  | .jmp ra1 unused off => wordOfFields i.opcode ra1 unused off
  | .lw ra1 ra2 unused => wordOfFields i.opcode ra1 ra2 unused
  | .sw ra1 ra2 unused => wordOfFields i.opcode ra1 ra2 unused
  | .lhi ra1 unused imm => wordOfFields i.opcode ra1 unused imm
  | .luhi ra1 unused imm => wordOfFields i.opcode ra1 unused imm
  | .bne ra1 ra2 off => wordOfFields i.opcode ra1 ra2 off
  | .mv ra1 ra2 unused => wordOfFields i.opcode ra1 ra2 unused
  | .add ra1 ra2 unused ra3 => wordOfFields i.opcode ra1 ra2 (halfOfBytes unused ra3)
  | .brk unused => wordOfOpcode i.opcode unused

/-- The decoded instruction (R53) of an instruction of the map: what the halt report latches (10_state.md R30). -/
def Instr.fields (i : Instr) : Fields := decodeFields (encode i)

/-- The same instruction with its unused bits zero, as R75 writes it. -/
def Instr.canonical : Instr → Instr
  | .nop _ => .nop 0
  | .jmp ra1 _ off => .jmp ra1 0 off
  | .lw ra1 ra2 _ => .lw ra1 ra2 0
  | .sw ra1 ra2 _ => .sw ra1 ra2 0
  | .lhi ra1 _ imm => .lhi ra1 0 imm
  | .luhi ra1 _ imm => .luhi ra1 0 imm
  | .bne ra1 ra2 off => .bne ra1 ra2 off
  | .mv ra1 ra2 _ => .mv ra1 ra2 0
  | .add ra1 ra2 _ ra3 => .add ra1 ra2 0 ra3
  | .brk _ => .brk 0

end Sys2Proof
end

