-- ==== Sys2Proof/Machine/ResetValues.lean ====
section
/-! DEFINITION. The values that `State.reset` has where the spec leaves the parameter open (00_scope.md R8, R9). The
spec gives none: each is the model's own, and no statement about a program may rest on it. `State.launch` takes both
parameters as arguments. -/

namespace Sys2Proof.Machine

/-- DESIGN CHOICE (log entry 2; unsafe): `MEM_LEN` of `State.reset`, the size the spec's own vectors use
(95_test_vectors.md). The spec: "caller-specified", `0x800 + image_len ≤ MEM_LEN ≤ 2^32` (10_state.md R31). -/
def resetMemLen : Nat := 0x1000

/-- DESIGN CHOICE (log entry 1; unsafe): `REG_INIT` of `State.reset`. The spec gives the registers no reset value
(10_state.md R33). -/
def resetRegs : Vector Word 32 := Vector.replicate 32 0

end Sys2Proof.Machine
end

