-- ==== Sys2Proof/Machine/State.lean ====
section
/-! DEFINITION. The state of the machine (10_state.md), the reasons a step can stop, and the state after reset. -/

namespace Sys2Proof.Machine

/-- The memory bytes that differ from `Config.unlistedByte`, by address. -/
abbrev Memory := List Host.Cell

/-- The canonical form of memory: addresses strictly rising, and no entry equal to what an unlisted byte reads as. -/
abbrev Memory.wf (m : Memory) : Prop :=
  m.Pairwise (fun c d => c.1 < d.1) ∧ ∀ c ∈ m, c.2 ≠ Config.unlistedByte

/-- `run_state` (10_state.md R28). -/
inductive RunState where
  | running
  | halted
  deriving DecidableEq, Repr

/-- The three non-success Execution Results (60_exceptions.md R97). `halt_cause` is an `Option` of these, `none` being
the spec's own value `NONE` (10_state.md R29). -/
inductive HaltCause where
  /-- `UnknownOpcode`: no executor for the opcode (R100). -/
  | unknownOpcode
  /-- `AddressMisalignment`: the 4-byte-alignment test of JMP or BNE failed (R101). -/
  | addressMisalignment
  /-- `BreakpointHit`: BRK executed (R102). -/
  | breakpointHit
  deriving DecidableEq, Repr

/-- The one way the machine stops without a next state. -/
inductive Fault where
  /-- Raised by `step` in HALTED, which has no step (30_encoding.md R73, 60_exceptions.md R106). Safe: the spec gives
  a HALTED engine no step to take (log entry 4). -/
  | halted
  deriving DecidableEq, Repr

/-- The reasons the model refuses. -/
inductive Refusal where
  /-- Raised by an arm of `exec` for an instruction without a meaning; no arm does. Safe. -/
  | notModelled (mnemonic : String)
  /-- `Refused(UndefinedRegisterIndex)`: raised by ADD when its destination field is 32 or more (45_register.md R93,
  92_eei_decisions.md D7). Safe: nothing can be proved of a run that reaches it (log entry 7). -/
  | undefinedRegisterIndex
  /-- Raised by `State.launch`, never by a step: the launch breaks the premise
  `0x800 + image_len ≤ MEM_LEN ≤ 2^32` (70_reset_and_hazards.md R124, 10_state.md R31). Safe (log entry 13). -/
  | launchOutsidePremise
  deriving DecidableEq, Repr

/-- Everything the spec gives the machine (10_state.md R20 to R32). -/
structure State where
  /-- `r0` .. `r31` (R20). -/
  regs      : Vector Word 32
  /-- The address of the next instruction word to fetch (R25). -/
  pc        : Word
  /-- `run_state` (R28). -/
  runState  : RunState
  /-- `halt_cause` (R29), `none` for `NONE`. -/
  haltCause : Option HaltCause
  /-- `halt_instr` (R30), `none` before a halt. -/
  haltInstr : Option Fields
  /-- The bytes of memory (R31). -/
  mem       : Memory
  /-- `MEM_LEN` (R31), which no instruction changes. -/
  memLen    : Nat
  deriving DecidableEq, Repr

/-- The machine right after reset (10_state.md R33, 70_reset_and_hazards.md R121) with no image loaded, and the open
parameters at the values of Machine/ResetValues.lean (log entries 1, 2, 3). -/
def State.reset : State where
  regs      := resetRegs
  pc        := Config.entry
  runState  := .running
  haltCause := none
  haltInstr := none
  mem       := []
  memLen    := resetMemLen

end Sys2Proof.Machine
end

