-- ==== Sys2Proof/Machine/Flags.lean ====
section
/-! DEFINITION. The Boolean results of the ALU and the PCU. The machine has no flags (10_state.md R26): each of these
is used by the instruction that computes it and kept nowhere (45_register.md R96). -/

namespace Sys2Proof.Machine

/-- `mod4-test`: `a % 4 != 0` on an unsigned word (42_control.md R83). -/
def misaligned (a : Word) : Bool := a.toNat % 4 != 0

/-- `not-equal`, the compare of BNE (42_control.md R81). -/
def notEqual (a b : Word) : Bool := a != b

end Sys2Proof.Machine
end

