-- ==== Sys2Proof/Machine/Operands.lean ====
section
/-! DEFINITION. The operand forms (30_encoding.md R56 to R58), the ALU's functions on words (45_register.md R96), the
PCU's two targets (42_control.md R82), and which registers each instruction reads and writes (10_state.md R23). -/

namespace Sys2Proof.Machine

/-- `sext_32` (00_scope.md R12): the 16-bit field read as two's complement (PRESUMED by the spec itself, G1; log
entry 6). -/
def sext32 (v : Half) : Word := v.signExtend 32

/-- `zext_32` of the raw field `word[15:0]` (30_encoding.md R57). -/
def zext32 (v : Half) : Word := v.zeroExtend 32

/-- `add32`: `(a + b) mod 2^32` (45_register.md R94, R96). -/
def add32 (a b : Word) : Word := a + b

/-- `insert-low16`, LHI's function (44_immediate.md R89). -/
def insertLow16 (a : Word) (imm : Half) : Word := (a &&& 0xFFFF0000#32) ||| zext32 imm

/-- `insert-high16`, LUHI's function (44_immediate.md R90). -/
def insertHigh16 (a : Word) (imm : Half) : Word := (zext32 imm <<< 16) ||| (a &&& 0x0000FFFF#32)

/-- JMP's register-relative target (42_control.md R80, R82). -/
def jmpTarget (base : Word) (off : Half) : Word := add32 base (sext32 off)

/-- BNE's pc-relative target, from the address of the BNE word (42_control.md R81, R82). -/
def bneTarget (pc : Word) (off : Half) : Word := add32 pc (sext32 off)

/-- The register an 8-bit destination field names, if it names one (10_state.md R24). -/
def destReg (ra3 : BitVec 8) : Option RegIdx :=
  if ra3.toNat < 32 then some (ra3.extractLsb' 0 5) else none

/-- The instruction formats of 30_encoding.md R58. -/
inductive Format where
  | n
  | ri
  | rr
  | rri
  | rrr
  deriving DecidableEq, Repr

/-- The format of each instruction (R58, R60). -/
def formatOf : Instr → Format
  | .nop _ => .n
  | .jmp _ _ _ => .ri
  | .lw _ _ _ => .rr
  | .sw _ _ _ => .rr
  | .lhi _ _ _ => .ri
  | .luhi _ _ _ => .ri
  | .bne _ _ _ => .rri
  | .mv _ _ _ => .rr
  | .add _ _ _ _ => .rrr
  | .brk _ => .n

/-- The registers an instruction reads (10_state.md R23). -/
def regReads : Instr → List RegIdx
  | .nop _ => []
  | .jmp ra1 _ _ => [ra1]
  | .lw ra1 _ _ => [ra1]
  | .sw ra1 ra2 _ => [ra1, ra2]
  | .lhi ra1 _ _ => [ra1]
  | .luhi ra1 _ _ => [ra1]
  | .bne ra1 ra2 _ => [ra1, ra2]
  | .mv ra1 _ _ => [ra1]
  | .add ra1 ra2 _ _ => [ra1, ra2]
  | .brk _ => []

/-- The register an instruction writes, if any (10_state.md R23). -/
def regWrite : Instr → Option RegIdx
  | .nop _ => none
  | .jmp _ _ _ => none
  | .lw _ ra2 _ => some ra2
  | .sw _ _ _ => none
  | .lhi ra1 _ _ => some ra1
  | .luhi ra1 _ _ => some ra1
  | .bne _ _ _ => none
  | .mv _ ra2 _ => some ra2
  | .add _ _ _ ra3 => destReg ra3
  | .brk _ => none

end Sys2Proof.Machine
end

