-- ==== Sys2Proof/Machine/Ops.lean ====
section
/-! DEFINITION. The named operations on registers, pc and memory (RFC, PCU, MEM), the Execution Results, and what the
engine does with one: advance, or halt (XFSM). -/

namespace Sys2Proof.Machine

/-- `x[r]` (10_state.md R22). No register is hardwired (R21). -/
def State.reg (s : State) (r : RegIdx) : Word := s.regs[r.toNat]'r.isLt

/-- `x[r] <- v`: all 32 bits (10_state.md R22). -/
def State.setReg (s : State) (r : RegIdx) (v : Word) : State := { s with regs := s.regs.set r.toNat v r.isLt }

/-- `pc <- v` (00_scope.md R13). -/
def State.setPc (s : State) (v : Word) : State := { s with pc := v }

/-- `pc <- pc + 4` modulo 2^32 (30_encoding.md R72). -/
def State.advancePc (s : State) : State := s.setPc (add32 s.pc Config.instrBytes)

/-- One byte of memory. -/
def Memory.readByte : Memory → Nat → Byte
  | [], _ => Config.unlistedByte
  | c :: m, a => if c.1 = a then c.2 else Memory.readByte m a

/-- A byte put in front of cells of higher addresses, unless it is what an unlisted byte reads as. -/
def Memory.consByte (a : Nat) (v : Byte) (m : Memory) : Memory :=
  if v = Config.unlistedByte then m else (a, v) :: m

/-- One byte of memory written, the canonical form kept. -/
def Memory.writeByte : Memory → Nat → Byte → Memory
  | [], a, v => Memory.consByte a v []
  | c :: m, a, v =>
    if c.1 < a then c :: Memory.writeByte m a v
    else if c.1 = a then Memory.consByte a v m
    else Memory.consByte a v (c :: m)

/-- Consecutive bytes written from address `a` up (the image load, 70_reset_and_hazards.md R123). -/
def Memory.writeBytes : Memory → Nat → List Byte → Memory
  | m, _, [] => m
  | m, a, b :: bs => Memory.writeBytes (Memory.writeByte m a b) (a + 1) bs

/-- The little-endian word at `a` (20_memory.md R38). -/
def Memory.readWord (m : Memory) (a : Nat) : Word :=
  wordOfBytes (m.readByte a) (m.readByte (a + 1)) (m.readByte (a + 2)) (m.readByte (a + 3))

/-- A little-endian word written at `a` (20_memory.md R38). -/
def Memory.writeWord (m : Memory) (a : Nat) (v : Word) : Memory :=
  m.writeBytes a [byteOfWord v 0, byteOfWord v 1, byteOfWord v 2, byteOfWord v 3]

/-- The bounds check, in exact arithmetic: `a +ℕ 4 ≤ MEM_LEN` (20_memory.md R40, D5; log entry 9). -/
def State.inBounds (s : State) (a : Word) : Bool := decide (a.toNat + 4 ≤ s.memLen)

/-- `MemRead(a, 4)` (20_memory.md R41): 0 out of bounds; no alignment condition (R44; log entry 8). -/
def State.read32 (s : State) (a : Word) : Word := if s.inBounds a then s.mem.readWord a.toNat else 0

/-- `MemWrite(a, 4, v)` (20_memory.md R42): nothing out of bounds; no alignment condition (R44; log entry 8). -/
def State.write32 (s : State) (a : Word) (v : Word) : State :=
  if s.inBounds a then { s with mem := s.mem.writeWord a.toNat v } else s

/-- The fetch: `MemRead(pc, 4)` (30_encoding.md R68). -/
def State.fetch (s : State) : Word := s.read32 s.pc

/-- What an executor returns (60_exceptions.md R97). A non-success result carries no state: the executor that raises
it has written nothing (R99, D6; log entry 10). -/
inductive ExecutionResult where
  /-- `Success`, with the executor's writes made. -/
  | success (s : State)
  /-- One of the three non-success results. -/
  | raised (c : HaltCause)
  /-- `Refused(r)`, the model's own outcome (30_encoding.md R70). -/
  | refuse (r : Refusal)
  deriving DecidableEq, Repr

/-- TAKING AN EXCEPTION (30_encoding.md R71, 60_exceptions.md R107): HALTED, with the cause and the whole decoded
instruction latched (10_state.md R29, R30; log entry 12); `pc`, registers and memory stay. There is no vector and no
handler, and no return from it (R108). -/
def State.halt (s : State) (c : HaltCause) (f : Fields) : State :=
  { s with runState := .halted, haltCause := some c, haltInstr := some f }

/-- The end of the instruction cycle (30_encoding.md R71 to R73), from the state `s` before the instruction `f`: advance
the pc the executor left, or halt, or refuse. -/
def settle (f : Fields) (s : State) : ExecutionResult → Host.Outcome State Fault Refusal
  | .success t => .next t.advancePc
  | .raised c => .next (s.halt c f)
  | .refuse r => .refused r

/-- The cycle of a word outside the opcode map: dispatch runs no executor and yields `UnknownOpcode`
(30_encoding.md R62, R65). -/
def execUnknown (f : Fields) (s : State) : Host.Outcome State Fault Refusal := settle f s (.raised .unknownOpcode)

/-- A running machine of the same registers and bytes whose pc lies in bounds: the pc moves to the entry only where no
word can be stored at it (log entry 3). -/
def State.madeFetchable (s : State) : State :=
  let r := { s with runState := .running, haltCause := none, haltInstr := none }
  if r.inBounds r.pc then r else { r with pc := Config.entry, memLen := max r.memLen (Config.entry.toNat + 4) }

/-- The state whose next fetch reads the word `w` (log entry 3). -/
def State.withWordAtPc (s : State) (w : Word) : State := s.madeFetchable.write32 s.madeFetchable.pc w

end Sys2Proof.Machine
end

