-- ==== Sys2Proof/Machine/Control.lean ====
section
/-! DEFINITION. The control transfers JMP and BNE (42_control.md). The engine's `pc + 4` after them, the double advance
(R84), is `settle`'s, as after every success. -/

namespace Sys2Proof.Machine

/-- JMP (R80): the test is on the computed target. -/
def execJmp (ra1 : RegIdx) (unused : BitVec 5) (off : Half) (s : State) : Host.Outcome State Fault Refusal :=
  let target := jmpTarget (s.reg ra1) off
  settle (Instr.jmp ra1 unused off).fields s
    (if misaligned target then .raised .addressMisalignment else .success (s.setPc target))

/-- BNE (R81): the test is on `x[ra2]`, not on the destination (90_conflicts.md C3), and only when unequal. -/
def execBne (ra1 ra2 : RegIdx) (off : Half) (s : State) : Host.Outcome State Fault Refusal :=
  settle (Instr.bne ra1 ra2 off).fields s
    (if notEqual (s.reg ra1) (s.reg ra2) then
      if misaligned (s.reg ra2) then .raised .addressMisalignment else .success (s.setPc (bneTarget s.pc off))
    else .success s)

end Sys2Proof.Machine
end

