-- ==== Sys2Proof/Machine/Immediate.lean ====
section
/-! DEFINITION. The immediate loads LHI and LUHI (44_immediate.md). -/

namespace Sys2Proof.Machine

/-- LHI (R89). -/
def execLhi (ra1 : RegIdx) (unused : BitVec 5) (imm : Half) (s : State) : Host.Outcome State Fault Refusal :=
  settle (Instr.lhi ra1 unused imm).fields s (.success (s.setReg ra1 (insertLow16 (s.reg ra1) imm)))

/-- LUHI (R90). -/
def execLuhi (ra1 : RegIdx) (unused : BitVec 5) (imm : Half) (s : State) : Host.Outcome State Fault Refusal :=
  settle (Instr.luhi ra1 unused imm).fields s (.success (s.setReg ra1 (insertHigh16 (s.reg ra1) imm)))

end Sys2Proof.Machine
end

