-- ==== Sys2Proof/Machine/LoadStore.lean ====
section
/-! DEFINITION. The loads and stores LW and SW (43_load_store.md), register indirect with no displacement (R88). -/

namespace Sys2Proof.Machine

/-- LW (R86): address in `ra1`, destination `ra2`. -/
def execLw (ra1 ra2 : RegIdx) (unused : BitVec 16) (s : State) : Host.Outcome State Fault Refusal :=
  settle (Instr.lw ra1 ra2 unused).fields s (.success (s.setReg ra2 (s.read32 (s.reg ra1))))

/-- SW (R87): value in `ra1`, address in `ra2`. -/
def execSw (ra1 ra2 : RegIdx) (unused : BitVec 16) (s : State) : Host.Outcome State Fault Refusal :=
  settle (Instr.sw ra1 ra2 unused).fields s (.success (s.write32 (s.reg ra2) (s.reg ra1)))

end Sys2Proof.Machine
end

