-- ==== Sys2Proof/Machine/Register.lean ====
section
/-! DEFINITION. The register operations MV and ADD (45_register.md). -/

namespace Sys2Proof.Machine

/-- MV (R92): source `ra1`, destination `ra2`. -/
def execMv (ra1 ra2 : RegIdx) (unused : BitVec 16) (s : State) : Host.Outcome State Fault Refusal :=
  settle (Instr.mv ra1 ra2 unused).fields s (.success (s.setReg ra2 (s.reg ra1)))

/-- ADD (R93): a destination field that names no register is refused (D7; log entry 7). -/
def execAdd (ra1 ra2 : RegIdx) (unused ra3 : BitVec 8) (s : State) : Host.Outcome State Fault Refusal :=
  settle (Instr.add ra1 ra2 unused ra3).fields s
    (match destReg ra3 with
    | some d => .success (s.setReg d (add32 (s.reg ra1) (s.reg ra2)))
    | none => .refuse .undefinedRegisterIndex)

end Sys2Proof.Machine
end

