-- ==== Sys2Proof/Machine/System.lean ====
section
/-! DEFINITION. The system instructions NOP and BRK (41_system.md). -/

namespace Sys2Proof.Machine

/-- NOP (R78). -/
def execNop (unused : BitVec 26) (s : State) : Host.Outcome State Fault Refusal :=
  settle (Instr.nop unused).fields s (.success s)

/-- BRK (R79): `BreakpointHit`, always. -/
def execBrk (unused : BitVec 26) (s : State) : Host.Outcome State Fault Refusal :=
  settle (Instr.brk unused).fields s (.raised .breakpointHit)

end Sys2Proof.Machine
end

