-- ==== Sys2Proof/Machine/Dispatch.lean ====
section
/-! DEFINITION. DISP: one executor per opcode of the map (30_encoding.md R65). -/

namespace Sys2Proof.Machine

def exec (i : Instr) (s : State) : Host.Outcome State Fault Refusal :=
  match i with
  | .nop unused => Sys2Proof.Machine.execNop unused s
  | .jmp ra1 unused off => Sys2Proof.Machine.execJmp ra1 unused off s
  | .lw ra1 ra2 unused => Sys2Proof.Machine.execLw ra1 ra2 unused s
  | .sw ra1 ra2 unused => Sys2Proof.Machine.execSw ra1 ra2 unused s
  | .lhi ra1 unused imm => Sys2Proof.Machine.execLhi ra1 unused imm s
  | .luhi ra1 unused imm => Sys2Proof.Machine.execLuhi ra1 unused imm s
  | .bne ra1 ra2 off => Sys2Proof.Machine.execBne ra1 ra2 off s
  | .mv ra1 ra2 unused => Sys2Proof.Machine.execMv ra1 ra2 unused s
  | .add ra1 ra2 unused ra3 => Sys2Proof.Machine.execAdd ra1 ra2 unused ra3 s
  | .brk unused => Sys2Proof.Machine.execBrk unused s

end Sys2Proof.Machine
end

