-- ==== Sys2Proof/Machine/Step.lean ====
section
/-! DEFINITION. One step: one whole instruction cycle (30_encoding.md R73). -/

namespace Sys2Proof.Machine

/-- Fetch, decode, execute, then halt or advance (R68 to R73). HALTED has no step (60_exceptions.md R106; log
entry 4). A word outside the opcode map halts the engine (R62). -/
def step (s : State) : Host.Outcome State Fault Refusal :=
  match s.runState with
  | .halted => .fault .halted
  | .running =>
    match decode s.fetch with
    | .ok i => exec i s
    | .error _ => execUnknown (decodeFields s.fetch) s

/-- `s` with the table word `w` (its bits from `nbits` up zero) where `step` fetches next (log entry 3). -/
def State.withFetchWord (s : State) (nbits w : Nat) : State := s.withWordAtPc (BitVec.ofNat 32 (w % 2 ^ nbits))

end Sys2Proof.Machine
end

