-- ==== Sys2Proof/Machine/Assembly.lean ====
section
/-! DEFINITION. The spec's own written form of instructions (30_encoding.md R76, R77, D10). It carries no meaning for
the machine: no step uses this file. -/

namespace Sys2Proof.Machine

/-- The mnemonic of each instruction (R60). -/
def mnemonic : Instr → String
  | .nop _ => "NOP"
  | .jmp _ _ _ => "JMP"
  | .lw _ _ _ => "LW"
  | .sw _ _ _ => "SW"
  | .lhi _ _ _ => "LHI"
  | .luhi _ _ _ => "LUHI"
  | .bne _ _ _ => "BNE"
  | .mv _ _ _ => "MV"
  | .add _ _ _ _ => "ADD"
  | .brk _ => "BRK"

/-- A register name, `r0` and up (R76). -/
def regName (r : Nat) : String := "r" ++ toString r

/-- A signed immediate in decimal (R76). -/
def offText (off : Half) : String := toString off.toInt

/-- An unsigned immediate in decimal (R76). -/
def immText (imm : Half) : String := toString imm.toNat

/-- One line of R76: operands in field order, an address register in brackets. -/
def asmText (i : Instr) : String :=
  match i with
  | .nop _ => mnemonic i
  | .jmp ra1 _ off => mnemonic i ++ " " ++ regName ra1.toNat ++ ", " ++ offText off
  | .lw ra1 ra2 _ => mnemonic i ++ " [" ++ regName ra1.toNat ++ "], " ++ regName ra2.toNat
  | .sw ra1 ra2 _ => mnemonic i ++ " " ++ regName ra1.toNat ++ ", [" ++ regName ra2.toNat ++ "]"
  | .lhi ra1 _ imm => mnemonic i ++ " " ++ regName ra1.toNat ++ ", " ++ immText imm
  | .luhi ra1 _ imm => mnemonic i ++ " " ++ regName ra1.toNat ++ ", " ++ immText imm
  | .bne ra1 ra2 off =>
    mnemonic i ++ " " ++ regName ra1.toNat ++ ", " ++ regName ra2.toNat ++ ", " ++ offText off
  | .mv ra1 ra2 _ => mnemonic i ++ " " ++ regName ra1.toNat ++ ", " ++ regName ra2.toNat
  | .add ra1 ra2 _ ra3 =>
    mnemonic i ++ " " ++ regName ra1.toNat ++ ", " ++ regName ra2.toNat ++ ", " ++ regName ra3.toNat
  | .brk _ => mnemonic i

/-- One hexadecimal digit, in capitals. -/
def hexDigit (n : Nat) : Char := if n < 10 then Char.ofNat (48 + n) else Char.ofNat (55 + n)

/-- The eight hexadecimal digits of a word, the highest first (R76). -/
def hexText (w : Word) : String :=
  String.ofList ([28, 24, 20, 16, 12, 8, 4, 0].map fun k => hexDigit (w.toNat / 2 ^ k % 16))

/-- One line for a word: its instruction, or `.word 0xHHHHHHHH` for an unknown opcode (R76). -/
def asmOfWord (w : Word) : String :=
  match decode w with
  | .ok i => asmText i
  | .error _ => ".word 0x" ++ hexText w

/-- The idiom `LI32 rA, imm32` (R77): `LHI rA, imm32[15:0]` then `LUHI rA, imm32[31:16]`. -/
def li32 (ra1 : RegIdx) (imm32 : Word) : List Instr :=
  [.lhi ra1 0 (imm32.extractLsb' 0 16), .luhi ra1 0 (imm32.extractLsb' 16 16)]

end Sys2Proof.Machine
end

