-- ==== Sys2Proof/Machine/HostInterface.lean ====
section
/-! DEFINITION. What the host does to the machine before the first step, and what it reads after the last
(00_scope.md R17, 60_exceptions.md R117 to R120, 70_reset_and_hazards.md R121 to R124). -/

namespace Sys2Proof.Machine

/-- The launch premise (10_state.md R31, 70_reset_and_hazards.md R124). -/
abbrev launchable (memLen imageLen : Nat) : Prop :=
  Config.entry.toNat + imageLen ≤ memLen ∧ memLen ≤ Config.maxMemLen

/-- The state before the first instruction cycle (R121, 10_state.md R33), from the three launch inputs of
00_scope.md R9: the two open parameters and the image. Memory is zero but for the image, copied verbatim from `0x800`
up (R123). A launch outside the premise has no meaning (D11) and is refused (log entry 13). -/
def State.launch (memLen : Nat) (regInit : Vector Word 32) (image : List Byte) : Host.Outcome State Fault Refusal :=
  if launchable memLen image.length then
    .next
      { regs      := regInit
        pc        := Config.entry
        runState  := .running
        haltCause := none
        haltInstr := none
        mem       := Memory.writeBytes [] Config.entry.toNat image
        memLen    := memLen }
  else .refused .launchOutsidePremise

/-- The spec's own numbers for `halt_cause` (60_exceptions.md R104, D9; log entry 12). -/
def haltCode : Option HaltCause → Nat
  | none => 0
  | some .unknownOpcode => 1
  | some .addressMisalignment => 2
  | some .breakpointHit => 3

/-- The exit status (R117): `-1` for a run that has ended, none while it runs. -/
def State.exitStatus (s : State) : Option Int :=
  match s.runState with
  | .running => none
  | .halted => some Config.haltExitStatus

/-- What the host may read at HALTED (R118, R120). -/
structure FinalState where
  pc        : Word
  regs      : Vector Word 32
  mem       : Memory
  haltCause : Option HaltCause
  haltInstr : Option Fields
  deriving DecidableEq, Repr

/-- The final state of a run that has ended; a running one has none (R120). -/
def State.finalState (s : State) : Option FinalState :=
  match s.runState with
  | .running => none
  | .halted => some { pc := s.pc, regs := s.regs, mem := s.mem, haltCause := s.haltCause, haltInstr := s.haltInstr }

end Sys2Proof.Machine
end

