-- ==== Sys2Proof/Safety.lean ====
section
/-! DEFINITION. The terms that claims are stated in: what stays unchanged between two states, the machine's invariant,
and the states a run reaches. -/

namespace Sys2Proof.Machine

/-- Every register but those named keeps its value. -/
def RegsKeptExcept (ds : List RegIdx) (s t : State) : Prop := ∀ r : RegIdx, r ∉ ds → t.reg r = s.reg r

/-- Every byte of memory outside the `n` bytes from `a` up keeps its value, and so does the memory's size. -/
def BytesKeptOutside (a n : Nat) (s t : State) : Prop :=
  t.memLen = s.memLen ∧ ∀ b : Nat, b < a ∨ a + n ≤ b → t.mem.readByte b = s.mem.readByte b

/-- Every byte of memory keeps its value, and so does the memory's size. -/
def BytesKept (s t : State) : Prop := t.memLen = s.memLen ∧ ∀ b : Nat, t.mem.readByte b = s.mem.readByte b

/-- The run state and the halt report are as before. -/
def HaltStateKept (s t : State) : Prop :=
  t.runState = s.runState ∧ t.haltCause = s.haltCause ∧ t.haltInstr = s.haltInstr

/-- `t` is `s` halted with `c` by the decoded instruction `f`, and nothing else is written (60_exceptions.md R99). -/
def HaltedFrom (s : State) (c : HaltCause) (f : Fields) (t : State) : Prop :=
  t.runState = .halted ∧ t.haltCause = some c ∧ t.haltInstr = some f ∧ t.pc = s.pc ∧
    RegsKeptExcept [] s t ∧ BytesKept s t

/-- What raises each result, read from a decoded instruction and the state before it (60_exceptions.md R104). -/
def CauseHolds (c : HaltCause) (f : Fields) (s : State) : Prop :=
  match c with
  | .unknownOpcode => 10 ≤ f.op.toNat
  | .addressMisalignment =>
    (f.op = 1 ∧ misaligned (jmpTarget (s.reg f.ra1) f.off) = true) ∨
      (f.op = 6 ∧ s.reg f.ra1 ≠ s.reg f.ra2 ∧ misaligned (s.reg f.ra2) = true)
  | .breakpointHit => f.op = 9

/-- The halt report tells the truth: none while running; at HALTED the latched instruction is the one the unchanged
`pc` fetches, and the latched cause is what that instruction raises in the unchanged registers. -/
def HaltReportTrue (s : State) : Prop :=
  match s.runState with
  | .running => s.haltCause = none ∧ s.haltInstr = none
  | .halted =>
    s.haltInstr = some (decodeFields s.fetch) ∧
      ∃ c, s.haltCause = some c ∧ CauseHolds c (decodeFields s.fetch) s

/-- The invariant of the machine. The pc's alignment is no part of it (10_state.md R27). -/
structure State.Inv (s : State) : Prop where
  memCanonical : s.mem.wf
  memInside : ∀ c ∈ s.mem, c.1 < s.memLen
  holdsEntry : Config.entry.toNat ≤ s.memLen
  addressable : s.memLen ≤ Config.maxMemLen
  reportTrue : HaltReportTrue s

/-- `t` is reached from `s` by steps of the machine, each taken in a state where `P` holds. -/
inductive ReachesWhile (P : State → Prop) : State → State → Prop where
  | refl (s : State) : ReachesWhile P s s
  | step {s t u : State} : ReachesWhile P s t → P t → Machine.step t = .next u → ReachesWhile P s u

/-- `t` is reached from `s` by steps of the machine. -/
abbrev Reaches : State → State → Prop := ReachesWhile fun _ => True

/-- The instruction that `s` fetches is a store into at least one of the `n` bytes from `a` up: an SW whose four bytes
are in bounds and overlap them (43_load_store.md R87, 20_memory.md R42). -/
def StoresInto (a n : Nat) (s : State) : Prop :=
  ∃ (v b : RegIdx) (x : BitVec 16), decode s.fetch = .ok (.sw v b x) ∧ s.inBounds (s.reg b) = true ∧
    (s.reg b).toNat < a + n ∧ a < (s.reg b).toNat + 4

/-- The instruction that `s` fetches writes the register `r`, by the table of 10_state.md R23. -/
def WritesRegister (r : RegIdx) (s : State) : Prop := ∃ i, decode s.fetch = .ok i ∧ regWrite i = some r

/-- The instruction that `s` fetches is an ADD whose destination field names no register (45_register.md R93). -/
def FetchesRefusedAdd (s : State) : Prop :=
  ∃ (a b : RegIdx) (x d : BitVec 8), decode s.fetch = .ok (.add a b x d) ∧ 32 ≤ d.toNat

/-- `i` completes from `s` and writes `v` to `r`, and `r` holds `v` in every later state until an instruction writes
`r` again: read there, by MV into any register, it gives `v`, and still holds it (10_state.md R21, R22). -/
def WriteLasts (i : Instr) (s : State) (r : RegIdx) (v : Word) : Prop :=
  ∃ t, exec i s = .next t ∧ ∀ u, ReachesWhile (fun w => ¬ WritesRegister r w) t u →
    u.reg r = v ∧ ∀ (d : RegIdx) (y : BitVec 16), ∃ w, exec (.mv r d y) u = .next w ∧ w.reg d = v ∧ w.reg r = v

/-- `n` steps, stopping at the first that answers no next state. -/
def steps : Nat → State → Host.Outcome State Fault Refusal
  | 0, s => .next s
  | n + 1, s =>
    match step s with
    | .next t => steps n t
    | .fault r => .fault r
    | .refused r => .refused r

/-- The outcome of `i` then `j`, each run by `exec`. -/
def execTwo (i j : Instr) (s : State) : Host.Outcome State Fault Refusal :=
  match exec i s with
  | .next t => exec j t
  | .fault r => .fault r
  | .refused r => .refused r

/-- A state without its latched instruction, which holds the unused bits of a word (30_encoding.md R53). -/
def State.withoutHaltInstr (s : State) : State := { s with haltInstr := none }

/-- Two outcomes are the same but for the latched instruction. -/
def SameButHaltInstr : Host.Outcome State Fault Refusal → Host.Outcome State Fault Refusal → Prop
  | .next s, .next t => s.withoutHaltInstr = t.withoutHaltInstr
  | .fault r, .fault q => r = q
  | .refused r, .refused q => r = q
  | _, _ => False

/-- Two states that agree on everything but possibly the register `r`. -/
def AgreeExcept (r : RegIdx) (s t : State) : Prop :=
  RegsKeptExcept [r] s t ∧ t.pc = s.pc ∧ HaltStateKept s t ∧ t.mem = s.mem ∧ t.memLen = s.memLen

end Sys2Proof.Machine
end

