-- ==== Sys2Proof/Certificates/Slice0/Obligations.lean ====
section
/-! DEFINITION. The statements for the provers. Each docstring names the rules of spec/ a statement formalises or
rests on. -/

open Sys2Proof Sys2Proof.Machine

/-! ### Encoding and decoding (30_encoding.md) -/

/-- Decoding the encoding of an instruction gives it back, every operand and every unused bit at every value (R53,
R60, R75). The opcode numbers 1 .. 9 are the spec's own reading (R61, D8; log entry 11). -/
def Obligations.DecodeEncodeRoundTrip : Prop := ∀ i : Instr, decode (encode i) = .ok i

/-- A word that decodes is the encoding of the instruction it decodes to, so no bit of it is dropped (R53, R75). -/
def Obligations.EncodeDecodeRoundTrip : Prop := ∀ (w : Word) (i : Instr), decode w = .ok i → encode i = w

/-- The opcode map by mask and match, with the fields each format takes (R58, R60, R62; numbers: D8, log entry 11). -/
def Obligations.OpcodeMapByMaskAndMatch : Prop :=
  ∀ w : Word,
    let a := w.extractLsb' 21 5
    let b := w.extractLsb' 16 5
    let m := w.extractLsb' 0 16
    let k := w &&& 0xFC000000
    (k = 0x00000000 → decode w = .ok (.nop (w.extractLsb' 0 26))) ∧
    (k = 0x04000000 → decode w = .ok (.jmp a b m)) ∧
    (k = 0x08000000 → decode w = .ok (.lw a b m)) ∧
    (k = 0x0C000000 → decode w = .ok (.sw a b m)) ∧
    (k = 0x10000000 → decode w = .ok (.lhi a b m)) ∧
    (k = 0x14000000 → decode w = .ok (.luhi a b m)) ∧
    (k = 0x18000000 → decode w = .ok (.bne a b m)) ∧
    (k = 0x1C000000 → decode w = .ok (.mv a b m)) ∧
    (k = 0x20000000 → decode w = .ok (.add a b (w.extractLsb' 8 8) (w.extractLsb' 0 8))) ∧
    (k = 0x24000000 → decode w = .ok (.brk (w.extractLsb' 0 26))) ∧
    (0x28000000 ≤ k.toNat → decode w = .error (.unknownOpcode (w.extractLsb' 26 6)))

/-- R54: for every word the opcode value is `word >> 26`, and the other fields are those of the layout of §4.2; an
opcode value outside 0 .. 9 decodes to a tag that dispatch reports as unknown, by that value. -/
def Obligations.OpcodeIsWordShifted : Prop :=
  ∀ w : Word,
    (decodeFields w).op.toNat = w.toNat >>> 26 ∧
    (decodeFields w).ra1.toNat = w.toNat >>> 21 % 2 ^ 5 ∧
    (decodeFields w).ra2.toNat = w.toNat >>> 16 % 2 ^ 5 ∧
    (decodeFields w).ra3.toNat = w.toNat % 2 ^ 8 ∧
    (decodeFields w).off.toNat = w.toNat % 2 ^ 16 ∧
    (10 ≤ w.toNat >>> 26 → decode w = .error (.unknownOpcode (decodeFields w).op))

/-- R55: `ra3 == word[7:0] == off[7:0]` for every word. -/
def Obligations.Ra3IsLowByteOfOffset : Prop :=
  ∀ w : Word,
    (decodeFields w).ra3 = w.extractLsb' 0 8 ∧ (decodeFields w).off.extractLsb' 0 8 = w.extractLsb' 0 8

/-- Words written out from the spec's encodings (95_test_vectors.md) decode to the instructions they stand for. -/
def Obligations.WrittenWordsDecode : Prop :=
  decode 0x04200010 = .ok (.jmp 1 0 16) ∧ decode 0x1824FFF8 = .ok (.bne 1 4 0xFFF8) ∧
  decode 0x2022FF03 = .ok (.add 1 2 0xFF 3) ∧ decode 0x0C410000 = .ok (.sw 2 1 0) ∧
  decode 0x14201234 = .ok (.luhi 1 0 0x1234) ∧ decode 0x1CA90000 = .ok (.mv 5 9 0) ∧
  decode 0x24000000 = .ok (.brk 0) ∧ decode 0x3C000000 = .error (.unknownOpcode 15)

/-- The bits an instruction's format does not use do not change what it does: it ends as the same instruction with
those bits zero does, but for the latched copy of the instruction itself (R59, D12; the copy is the model's reading of
R30 and R53, log entry 5). -/
def Obligations.UnusedBitsChangeNothing : Prop :=
  ∀ (i : Instr) (s : State), SameButHaltInstr (exec i s) (exec i.canonical s)

/-- The 16-bit offset as the spec extends it: itself, or `+ 0xFFFF0000` where bit 15 is set; as a signed integer
`v - 2^16 * v[15]` (R12, R56). Two's complement is the spec's own general knowledge (G1; log entry 6). -/
def Obligations.OffsetSignExtension : Prop :=
  ∀ v : Half,
    sext32 v = (if v.toNat < 2 ^ 15 then v.zeroExtend 32 else v.zeroExtend 32 + 0xFFFF0000) ∧
    (sext32 v).toInt = (v.toNat : Int) - 2 ^ 16 * (v.toNat / 2 ^ 15 : Nat)

/-! ### The memory engine (20_memory.md) -/

/-- R41: `MemRead(a, 4)` is 0 out of bounds and the little-endian word in bounds. -/
def Obligations.WordReadByBounds : Prop :=
  ∀ (s : State) (a : Word),
    (s.memLen < a.toNat + 4 → s.read32 a = 0) ∧
    (a.toNat + 4 ≤ s.memLen →
      s.read32 a =
        ((s.mem.readByte a.toNat).zeroExtend 32 ||| (s.mem.readByte (a.toNat + 1)).zeroExtend 32 <<< 8 |||
          (s.mem.readByte (a.toNat + 2)).zeroExtend 32 <<< 16 ||| (s.mem.readByte (a.toNat + 3)).zeroExtend 32 <<< 24))

/-- R42: `MemWrite(a, 4, v)` writes nothing out of bounds; in bounds it writes the four bytes, the least significant
at `a`, and nothing else. -/
def Obligations.WordWriteByBounds : Prop :=
  ∀ (s : State) (a v : Word), s.mem.wf →
    (s.memLen < a.toNat + 4 → s.write32 a v = s) ∧
    (a.toNat + 4 ≤ s.memLen →
      let t := s.write32 a v
      t.mem.readByte a.toNat = v.extractLsb' 0 8 ∧ t.mem.readByte (a.toNat + 1) = v.extractLsb' 8 8 ∧
      t.mem.readByte (a.toNat + 2) = v.extractLsb' 16 8 ∧ t.mem.readByte (a.toNat + 3) = v.extractLsb' 24 8 ∧
      BytesKeptOutside a.toNat 4 s t ∧ RegsKeptExcept [] s t ∧ t.pc = s.pc ∧ HaltStateKept s t)

/-- Repeating a write leaves the memory as it was after the first, in and out of bounds (R46). -/
def Obligations.RepeatedWriteChangesNothing : Prop :=
  ∀ (s : State) (a v : Word), s.mem.wf → (s.write32 a v).write32 a v = s.write32 a v

/-- Two memories in canonical form that read alike at every byte are the same data: the form is canonical. -/
def Obligations.CanonicalMemoryIsItsBytes : Prop :=
  ∀ m n : Memory, m.wf → n.wf → (∀ a : Nat, m.readByte a = n.readByte a) → m = n

/-- R128: a load after a store to the same bytes returns the stored word: the very next instruction, or any later one
that loads from the same address, as long as no instruction between them stores into one of the four bytes. -/
def Obligations.LoadAfterStoreReturnsStoredWord : Prop :=
  ∀ (s : State) (v a : RegIdx) (x : BitVec 16), s.mem.wf → (s.reg a).toNat + 4 ≤ s.memLen →
    ∃ t, exec (.sw v a x) s = .next t ∧
      ∀ u, ReachesWhile (fun w => ¬ StoresInto (s.reg a).toNat 4 w) t u →
        ∀ (b d : RegIdx) (y : BitVec 16), u.reg b = s.reg a →
          ∃ w, exec (.lw b d y) u = .next w ∧ w.reg d = s.reg v

/-- R129: a store is seen by every later fetch of its address until an instruction stores into one of its four bytes
again, the fetch of the very next instruction included; and a fetch that covers a single stored byte sees that byte
until an instruction stores into it again. -/
def Obligations.StoreSeenByFetch : Prop :=
  ∀ (s : State) (v a : RegIdx) (x : BitVec 16), s.mem.wf → (s.reg a).toNat + 4 ≤ s.memLen →
    ∃ t, exec (.sw v a x) s = .next t ∧
      (s.reg a = s.pc + 4 → t.fetch = s.reg v) ∧
      (∀ u, ReachesWhile (fun w => ¬ StoresInto (s.reg a).toNat 4 w) t u →
        u.read32 (s.reg a) = s.reg v ∧ (u.pc = s.reg a → u.fetch = s.reg v)) ∧
      (∀ k : Nat, k < 4 → ∀ u, ReachesWhile (fun w => ¬ StoresInto ((s.reg a).toNat + k) 1 w) t u →
        ∀ j : Nat, j < 4 → u.pc.toNat + 4 ≤ u.memLen → u.pc.toNat + j = (s.reg a).toNat + k →
          u.fetch.extractLsb' (8 * j) 8 = (s.reg v).extractLsb' (8 * k) 8)

/-! ### The ten instructions: what each does, and what it leaves unchanged -/

/-- NOP completes in every state: the pc advances and nothing else changes (41_system.md R78). -/
def Obligations.NopOnlyAdvances : Prop :=
  ∀ (x : BitVec 26) (s : State), ∃ t, exec (.nop x) s = .next t ∧ t.pc = s.pc + 4 ∧
    RegsKeptExcept [] s t ∧ BytesKept s t ∧ HaltStateKept s t

/-- BRK completes in every state by halting: `BreakpointHit`, the instruction latched, the pc its own address, nothing
else written (41_system.md R79, R71; the latched instruction: D9, log entry 12). -/
def Obligations.BrkHaltsAtItself : Prop :=
  ∀ (x : BitVec 26) (s : State), ∃ t, exec (.brk x) s = .next t ∧
    HaltedFrom s .breakpointHit (decodeFields (encode (.brk x))) t

/-- JMP to an aligned target completes: the pc ends 4 beyond the target, and nothing else changes (42_control.md R80,
R84). -/
def Obligations.JmpContinuesFourAfterTarget : Prop :=
  ∀ (a : RegIdx) (x : BitVec 5) (off : Half) (s : State), (s.reg a + sext32 off).toNat % 4 = 0 →
    ∃ t, exec (.jmp a x off) s = .next t ∧ t.pc = s.reg a + sext32 off + 4 ∧
      RegsKeptExcept [] s t ∧ BytesKept s t ∧ HaltStateKept s t

/-- JMP to an unaligned target halts with `AddressMisalignment` and writes nothing else (R80, R101; that the test comes
before the pc's write is the spec's own decision D6, log entry 10). -/
def Obligations.JmpToUnalignedTargetHalts : Prop :=
  ∀ (a : RegIdx) (x : BitVec 5) (off : Half) (s : State), (s.reg a + sext32 off).toNat % 4 ≠ 0 →
    ∃ t, exec (.jmp a x off) s = .next t ∧
      HaltedFrom s .addressMisalignment (decodeFields (encode (.jmp a x off))) t

/-- BNE with unequal operands and an aligned second one branches: the pc ends at its own address `+ off + 4`, whatever
`off` is, and nothing else changes (42_control.md R81, R84). -/
def Obligations.BneTakenBranches : Prop :=
  ∀ (a b : RegIdx) (off : Half) (s : State), s.reg a ≠ s.reg b → (s.reg b).toNat % 4 = 0 →
    ∃ t, exec (.bne a b off) s = .next t ∧ t.pc = s.pc + sext32 off + 4 ∧
      RegsKeptExcept [] s t ∧ BytesKept s t ∧ HaltStateKept s t

/-- BNE with equal operands falls through, with no test of their alignment (R81). -/
def Obligations.BneEqualFallsThrough : Prop :=
  ∀ (a b : RegIdx) (off : Half) (s : State), s.reg a = s.reg b →
    ∃ t, exec (.bne a b off) s = .next t ∧ t.pc = s.pc + 4 ∧
      RegsKeptExcept [] s t ∧ BytesKept s t ∧ HaltStateKept s t

/-- BNE with unequal operands and an unaligned second one halts with `AddressMisalignment`, whatever its destination,
and writes nothing else (R81, R83; D6, log entry 10). -/
def Obligations.BneUnalignedOperandHalts : Prop :=
  ∀ (a b : RegIdx) (off : Half) (s : State), s.reg a ≠ s.reg b → (s.reg b).toNat % 4 ≠ 0 →
    ∃ t, exec (.bne a b off) s = .next t ∧
      HaltedFrom s .addressMisalignment (decodeFields (encode (.bne a b off))) t

/-- LW completes in every state: the destination gets the word at the old value of the address register, 0 out of
bounds, and nothing else but the pc changes (43_load_store.md R86, 20_memory.md R41). -/
def Obligations.LwLoadsWord : Prop :=
  ∀ (a d : RegIdx) (x : BitVec 16) (s : State), ∃ t, exec (.lw a d x) s = .next t ∧
    t.reg d = s.read32 (s.reg a) ∧ ((s.memLen < (s.reg a).toNat + 4) → t.reg d = 0) ∧
    t.pc = s.pc + 4 ∧ RegsKeptExcept [d] s t ∧ BytesKept s t ∧ HaltStateKept s t

/-- SW completes in every state: in bounds the four bytes at the address get the value, the least significant first;
out of bounds no byte changes; nothing else but the pc changes (43_load_store.md R87, 20_memory.md R42). -/
def Obligations.SwStoresWord : Prop :=
  ∀ (v a : RegIdx) (x : BitVec 16) (s : State), s.mem.wf → ∃ t, exec (.sw v a x) s = .next t ∧
    ((s.reg a).toNat + 4 ≤ s.memLen →
      BytesKeptOutside (s.reg a).toNat 4 s t ∧
      ∀ k : Nat, k < 4 → t.mem.readByte ((s.reg a).toNat + k) = (s.reg v).extractLsb' (8 * k) 8) ∧
    (s.memLen < (s.reg a).toNat + 4 → BytesKept s t) ∧
    t.pc = s.pc + 4 ∧ RegsKeptExcept [] s t ∧ HaltStateKept s t

/-- LHI completes in every state: the low half of its register is the immediate, the high half is kept, and nothing
else but the pc changes (44_immediate.md R89). -/
def Obligations.LhiReplacesLowHalf : Prop :=
  ∀ (a : RegIdx) (x : BitVec 5) (m : Half) (s : State), ∃ t, exec (.lhi a x m) s = .next t ∧
    (t.reg a).extractLsb' 0 16 = m ∧ (t.reg a).extractLsb' 16 16 = (s.reg a).extractLsb' 16 16 ∧
    t.pc = s.pc + 4 ∧ RegsKeptExcept [a] s t ∧ BytesKept s t ∧ HaltStateKept s t

/-- LUHI completes in every state: the high half of its register is the immediate, the low half is kept, and nothing
else but the pc changes (44_immediate.md R90). -/
def Obligations.LuhiReplacesHighHalf : Prop :=
  ∀ (a : RegIdx) (x : BitVec 5) (m : Half) (s : State), ∃ t, exec (.luhi a x m) s = .next t ∧
    (t.reg a).extractLsb' 16 16 = m ∧ (t.reg a).extractLsb' 0 16 = (s.reg a).extractLsb' 0 16 ∧
    t.pc = s.pc + 4 ∧ RegsKeptExcept [a] s t ∧ BytesKept s t ∧ HaltStateKept s t

/-- MV completes in every state: the second register gets the first, and nothing else but the pc changes
(45_register.md R92). -/
def Obligations.MvCopiesRegister : Prop :=
  ∀ (a d : RegIdx) (x : BitVec 16) (s : State), ∃ t, exec (.mv a d x) s = .next t ∧
    t.reg d = s.reg a ∧ t.pc = s.pc + 4 ∧ RegsKeptExcept [d] s t ∧ BytesKept s t ∧ HaltStateKept s t

/-- ADD into a register that exists completes: the sum of the old values modulo 2^32, and nothing else but the pc
changes (45_register.md R93, R94). -/
def Obligations.AddWrapsModuloWord : Prop :=
  ∀ (a b : RegIdx) (x d : BitVec 8) (s : State), d.toNat < 32 →
    let r : RegIdx := BitVec.ofNat 5 d.toNat
    ∃ t, exec (.add a b x d) s = .next t ∧ (t.reg r).toNat = ((s.reg a).toNat + (s.reg b).toNat) % 2 ^ 32 ∧
      t.pc = s.pc + 4 ∧ RegsKeptExcept [r] s t ∧ BytesKept s t ∧ HaltStateKept s t

/-- ADD whose destination field names no register is refused (the spec's own decision D7 in R93; log entry 7). -/
def Obligations.AddRefusesMissingRegister : Prop :=
  ∀ (a b : RegIdx) (x d : BitVec 8) (s : State), 32 ≤ d.toNat →
    exec (.add a b x d) s = .refused .undefinedRegisterIndex

/-- ADD is commutative, in its result and in everything else it does (45_register.md R94). -/
def Obligations.AddCommutes : Prop :=
  ∀ (a b : RegIdx) (x d : BitVec 8) (s : State), exec (.add a b x d) s = exec (.add b a x d) s

/-- R21: no register is hardwired, `r0` included: whatever instruction writes it (LW, LHI, LUHI, MV or ADD), every
register takes the written value, and every later read of it gives that value until an instruction writes it again. -/
def Obligations.EveryRegisterKeepsWhatIsWritten : Prop :=
  ∀ (s : State) (r : RegIdx),
    (∀ (a : RegIdx) (x : BitVec 16), WriteLasts (.lw a r x) s r (s.read32 (s.reg a))) ∧
    (∀ (x : BitVec 5) (m : Half), WriteLasts (.lhi r x m) s r ((s.reg r &&& 0xFFFF0000) ||| m.zeroExtend 32)) ∧
    (∀ (x : BitVec 5) (m : Half),
      WriteLasts (.luhi r x m) s r ((m.zeroExtend 32 <<< 16) ||| (s.reg r &&& 0x0000FFFF))) ∧
    (∀ (a : RegIdx) (x : BitVec 16), WriteLasts (.mv a r x) s r (s.reg a)) ∧
    (∀ (a b : RegIdx) (x d : BitVec 8), d.toNat = r.toNat →
      WriteLasts (.add a b x d) s r (s.reg a + s.reg b))

/-- The idiom LI32: LHI and LUHI, in either order, put any constant into any register whatever it held, in two
instructions, and change no other register and no byte (44_immediate.md R91). -/
def Obligations.Li32EitherOrderBuildsConstant : Prop :=
  ∀ (a : RegIdx) (c : Word) (s : State), ∀ i j : Instr, (li32 a c = [i, j] ∨ li32 a c = [j, i]) →
    ∃ t, execTwo i j s = .next t ∧ t.reg a = c ∧ t.pc = s.pc + 8 ∧
      RegsKeptExcept [a] s t ∧ BytesKept s t ∧ HaltStateKept s t

/-! ### The instruction cycle and the halt state machine (30_encoding.md, 60_exceptions.md) -/

/-- When the four bytes at an in-bounds pc decode to an instruction, a running machine's step is `exec` of it at that
state; the advance or the halt is part of `exec` (R68 to R73; log entry 16). -/
def Obligations.StepRunsDecodedInstruction : Prop :=
  ∀ (s : State) (i : Instr), s.runState = .running → s.pc.toNat + 4 ≤ s.memLen →
    decode (wordOfBytes (s.mem.readByte s.pc.toNat) (s.mem.readByte (s.pc.toNat + 1))
      (s.mem.readByte (s.pc.toNat + 2)) (s.mem.readByte (s.pc.toNat + 3))) = .ok i →
    step s = exec i s

/-- A running machine whose pc has no whole word in memory advances by 4 and does nothing else: the fetch gives the
zero word, NOP (R68, R74, 20_memory.md R39). -/
def Obligations.OutOfBoundsFetchIsNop : Prop :=
  ∀ s : State, s.runState = .running → s.memLen < s.pc.toNat + 4 →
    ∃ t, step s = .next t ∧ t.pc = s.pc + 4 ∧ RegsKeptExcept [] s t ∧ BytesKept s t ∧ HaltStateKept s t

/-- Beyond the end of memory the engine spins forward: `n` steps advance the pc by `4n`, up to and through the wrap to
0, and change nothing else (R74, R119). -/
def Obligations.EngineSpinsForwardBeyondMemory : Prop :=
  ∀ (n : Nat) (s : State), s.runState = .running → s.memLen ≤ s.pc.toNat → s.pc.toNat + 4 * n ≤ 2 ^ 32 →
    steps n s = .next (s.setPc (s.pc + BitVec.ofNat 32 (4 * n)))

/-- R62, R100: every opcode value 10 .. 63 decodes without failure to itself and has no executor; its execution halts
with `UnknownOpcode`, reports the raw opcode value, and writes nothing else, whatever the other 26 bits are. -/
def Obligations.UnknownOpcodeHaltsWithItsValue : Prop :=
  ∀ s : State, s.runState = .running → 10 ≤ (s.fetch >>> 26).toNat →
    (∃ op, decode s.fetch = .error (.unknownOpcode op) ∧ op.toNat = (s.fetch >>> 26).toNat) ∧
    ∃ t f, step s = .next t ∧ HaltedFrom s .unknownOpcode f t ∧ f.op.toNat = (s.fetch >>> 26).toNat

/-- The states that have no step are exactly the HALTED ones, where the model answers its one fault (R73, R106; the
fault is the model's own way to say so, log entry 4), and the RUNNING ones at an ADD that names no register, where it
refuses (R73, R93, by the spec's own decision D7; log entry 7). -/
def Obligations.NoStepExactlyAtHaltOrRefusedAdd : Prop :=
  ∀ s : State,
    ((∃ r, step s = .fault r) ↔ s.runState = .halted) ∧
    ((∃ q, step s = .refused q) ↔ s.runState = .running ∧ FetchesRefusedAdd s) ∧
    ((∀ t, step s ≠ .next t) ↔ s.runState = .halted ∨ (s.runState = .running ∧ FetchesRefusedAdd s))

/-- R135: while running the engine always has a step, so the only ways a run stops are HALTED and the model's refusal
of an ADD that names no register. -/
def Obligations.RunningEngineAlwaysSteps : Prop :=
  ∀ s : State, s.runState = .running →
    (∃ t, step s = .next t) ∨ (step s = .refused .undefinedRegisterIndex ∧ FetchesRefusedAdd s)

/-- Every halt is precise: the step that halts writes no register, no byte and not the pc, and latches the instruction
it fetched (R71, R99, R107; for JMP and BNE by the spec's own decision D6, log entry 10; the latch: D9, log entries 5
and 12). -/
def Obligations.EveryHaltIsPrecise : Prop :=
  ∀ s t : State, step s = .next t → t.runState = .halted →
    ∃ c, HaltedFrom s c (decodeFields s.fetch) t

/-- R101: `AddressMisalignment` is raised only by JMP, when its target is not a multiple of 4, and by BNE, when its
operands differ and the second is not a multiple of 4; both tested values can be recomputed from the latched
instruction and the unchanged registers. -/
def Obligations.AddressMisalignmentRaisedExactly : Prop :=
  ∀ s t : State, s.Inv → step s = .next t →
    (t.haltCause = some .addressMisalignment ↔
      (∃ a x off, decode s.fetch = .ok (.jmp a x off) ∧ (s.reg a + sext32 off).toNat % 4 ≠ 0) ∨
      (∃ a b off, decode s.fetch = .ok (.bne a b off) ∧ s.reg a ≠ s.reg b ∧ (s.reg b).toNat % 4 ≠ 0)) ∧
    (t.haltCause = some .addressMisalignment →
      t.haltInstr = some (decodeFields s.fetch) ∧ RegsKeptExcept [] s t ∧ t.pc = s.pc)

/-- R102: `BreakpointHit` is raised only by BRK, and always by it. -/
def Obligations.BreakpointRaisedExactlyByBrk : Prop :=
  ∀ s t : State, s.Inv → step s = .next t →
    (t.haltCause = some .breakpointHit ↔ ∃ x, decode s.fetch = .ok (.brk x))

/-- The only way to leave RUNNING is one of the three results, each exactly under the condition the cause table gives
it: a step halts with a cause when and only when the fetched instruction raises that cause in the state before it, and
otherwise the machine keeps running (R104, R105, R106, R109; opcode numbers: D8, log entry 11). -/
def Obligations.EngineHaltsExactlyOnTableCauses : Prop :=
  ∀ s t : State, s.Inv → step s = .next t →
    (∀ c, t.haltCause = some c ↔ CauseHolds c (decodeFields s.fetch) s) ∧
    (t.runState = .running ↔ ∀ c, ¬ CauseHolds c (decodeFields s.fetch) s)

/-- The spec's own codes of the halt causes are 0 .. 3 in its order, and tell them apart (R104, D9; log entry 12). -/
def Obligations.HaltCodesInOrder : Prop :=
  haltCode none = 0 ∧ haltCode (some .unknownOpcode) = 1 ∧ haltCode (some .addressMisalignment) = 2 ∧
  haltCode (some .breakpointHit) = 3 ∧ ∀ c d, haltCode c = haltCode d → c = d

/-- The machine's invariant is kept by every step: memory stays canonical and inside `MEM_LEN`, `MEM_LEN` stays in its
range, and the halt report stays true of the state (R28 to R31, R71, R99, R101, R106). -/
def Obligations.StepKeepsInvariant : Prop := ∀ s t : State, s.Inv → step s = .next t → t.Inv

/-- The invariant holds at reset (10_state.md R33), at the values the model chose for the open parameters (log entries
1 and 2). -/
def Obligations.InvariantHoldsAtReset : Prop := State.reset.Inv

/-- The invariant holds after every launch the spec gives a meaning to, whatever the open parameters and the image
(R31, R33, R123, R124). -/
def Obligations.InvariantHoldsAfterLaunch : Prop :=
  ∀ (memLen : Nat) (regInit : Vector Word 32) (image : List Byte) (s : State),
    State.launch memLen regInit image = .next s → s.Inv

/-- Once halted a run reaches no other state: there is no resumption (R106, R108). -/
def Obligations.HaltedStateIsFinal : Prop :=
  ∀ s t : State, s.runState = .halted → Reaches s t → t = s

/-- The memory's size is fixed for the machine's lifetime (R31). -/
def Obligations.MemorySizeIsFixed : Prop := ∀ s t : State, Reaches s t → t.memLen = s.memLen

/-- R117: every run that ends, ends in HALTED with one of the three results, and then the exit status is -1; the value
0 is never produced. -/
def Obligations.EveryEndHasExitStatusMinusOne : Prop :=
  ∀ s t : State, s.Inv → Reaches s t →
    (t.runState = .halted → t.exitStatus = some (-1) ∧
      (t.haltCause = some .unknownOpcode ∨ t.haltCause = some .addressMisalignment ∨
        t.haltCause = some .breakpointHit)) ∧
    (t.exitStatus ≠ none → t.runState = .halted) ∧ t.exitStatus ≠ some 0

/-- The host reads a final state exactly at HALTED: the pc, the registers, the memory and the halt report (R118,
R120). -/
def Obligations.FinalStateExactlyAtHalt : Prop :=
  ∀ s : State,
    (s.runState = .running → s.finalState = none) ∧
    (s.runState = .halted →
      ∃ f, s.finalState = some f ∧ f.pc = s.pc ∧ f.regs = s.regs ∧ f.mem = s.mem ∧ f.haltCause = s.haltCause ∧
        f.haltInstr = s.haltInstr)

/-! ### Rules over all instructions -/

/-- An instruction writes at most the one register of the table of R23; every other register keeps its value. -/
def Obligations.OnlyListedRegisterIsWritten : Prop :=
  ∀ (i : Instr) (s t : State), exec i s = .next t → ∀ r : RegIdx, regWrite i ≠ some r → t.reg r = s.reg r

/-- A register outside those the table of R23 lists as read has no influence on an instruction: from two states that
differ in that register alone it ends alike, the two next states differ in that register at most, and not even there
if the instruction writes it. -/
def Obligations.UnlistedRegisterHasNoInfluence : Prop :=
  ∀ (i : Instr) (r : RegIdx) (s t : State), r ∉ regReads i → AgreeExcept r s t →
    match exec i s, exec i t with
    | .next u, .next v => AgreeExcept r u v ∧ (regWrite i = some r → u.reg r = v.reg r)
    | .refused p, .refused q => p = q
    | _, _ => False

/-- No instruction but SW changes a byte of memory (R23, 20_memory.md R47). -/
def Obligations.OnlyStoreChangesMemory : Prop :=
  ∀ (i : Instr) (s t : State), (∀ v a x, i ≠ .sw v a x) → exec i s = .next t → BytesKept s t

/-- Every instruction that completes without being JMP, BNE or BRK moves the pc on by exactly 4, modulo 2^32, and
leaves the run state and the halt report as they were (R25, R72, R85, R103). -/
def Obligations.PlainInstructionsAdvanceByFour : Prop :=
  ∀ (i : Instr) (s t : State), (∀ a x off, i ≠ .jmp a x off) → (∀ a b off, i ≠ .bne a b off) →
    (∀ x, i ≠ .brk x) → exec i s = .next t → t.pc = s.pc + 4 ∧ HaltStateKept s t

/-- JMP never leaves the pc unaligned: a JMP that goes on ends at a multiple of 4 (10_state.md R27). -/
def Obligations.JmpLeavesPcAligned : Prop :=
  ∀ (a : RegIdx) (x : BitVec 5) (off : Half) (s t : State), s.runState = .running →
    exec (.jmp a x off) s = .next t → t.runState = .running → t.pc.toNat % 4 = 0

/-- The alignment of the pc is no invariant: a taken BNE takes a machine that meets the invariant from an aligned pc to
an unaligned one (10_state.md R27, 90_conflicts.md C4). -/
def Obligations.BneCanLeavePcUnaligned : Prop :=
  ∃ (s t : State) (a b : RegIdx) (off : Half),
    s.Inv ∧ decode s.fetch = .ok (.bne a b off) ∧ s.reg a ≠ s.reg b ∧ s.pc.toNat % 4 = 0 ∧
      step s = .next t ∧ t.runState = .running ∧ t.pc.toNat % 4 ≠ 0

/-! ### Reset and launch (10_state.md, 70_reset_and_hazards.md) -/

/-- The state after reset: the entry pc, RUNNING, no halt report, every byte zero (R33, R121, R122). It is the launch
with no image at the values the model chose for the open parameters (log entries 1 and 2). -/
def Obligations.ResetIsLaunchWithoutImage : Prop :=
  State.reset.pc = 0x800 ∧ State.reset.runState = .running ∧ State.reset.haltCause = none ∧
  State.reset.haltInstr = none ∧ (∀ a : Nat, State.reset.mem.readByte a = 0) ∧
  State.launch resetMemLen resetRegs [] = .next State.reset

/-- R123: the launch copies the image's bytes verbatim from `0x800` up and every other byte is 0; the load writes no
register and not the pc; the first word is the image's first four bytes, little-endian. -/
def Obligations.LaunchLoadsImageVerbatim : Prop :=
  ∀ (memLen : Nat) (regInit : Vector Word 32) (image : List Byte),
    0x800 + image.length ≤ memLen → memLen ≤ 2 ^ 32 →
    ∃ s, State.launch memLen regInit image = .next s ∧
      (∀ k : Nat, (h : k < image.length) → s.mem.readByte (0x800 + k) = image[k]) ∧
      (∀ a : Nat, a < 0x800 ∨ 0x800 + image.length ≤ a → s.mem.readByte a = 0) ∧
      s.regs = regInit ∧ s.pc = 0x800 ∧ s.memLen = memLen ∧ s.runState = .running ∧
      (∀ b0 b1 b2 b3 rest, image = b0 :: b1 :: b2 :: b3 :: rest → s.fetch = wordOfBytes b0 b1 b2 b3)

/-- A launch outside the premise `0x800 + image_len ≤ MEM_LEN ≤ 2^32` is refused (R31, R124; the spec's own decisions
D2 and D11, log entry 13). -/
def Obligations.LaunchOutsidePremiseIsRefused : Prop :=
  ∀ (memLen : Nat) (regInit : Vector Word 32) (image : List Byte),
    (memLen < 0x800 + image.length ∨ 2 ^ 32 < memLen) →
    State.launch memLen regInit image = .refused .launchOutsidePremise

/-- A word placed for the next fetch is the word the next step fetches, in a running machine with the same registers
(the model's own aid, log entry 3). -/
def Obligations.PlacedWordIsFetched : Prop :=
  ∀ (s : State) (w : Nat), s.mem.wf →
    let t := s.withFetchWord 32 w
    t.fetch = BitVec.ofNat 32 w ∧ t.runState = .running ∧ t.regs = s.regs ∧
      (s.pc.toNat + 4 ≤ s.memLen → t.pc = s.pc ∧ t.memLen = s.memLen)
end

