-- ==== Sys2Proof/Laws/State.lean ====
section
/-! SUPPORT. One lemma per field of the state per update, so that no proof unfolds a record update. -/

namespace Sys2Proof.Machine

section fields
variable (s : State) (r q : RegIdx) (v : Word) (c : HaltCause) (f : Fields)

@[simp] theorem State.setReg_pc : (s.setReg r v).pc = s.pc := rfl
@[simp] theorem State.setReg_runState : (s.setReg r v).runState = s.runState := rfl
@[simp] theorem State.setReg_haltCause : (s.setReg r v).haltCause = s.haltCause := rfl
@[simp] theorem State.setReg_haltInstr : (s.setReg r v).haltInstr = s.haltInstr := rfl
@[simp] theorem State.setReg_mem : (s.setReg r v).mem = s.mem := rfl
@[simp] theorem State.setReg_memLen : (s.setReg r v).memLen = s.memLen := rfl

@[simp] theorem State.setPc_regs : (s.setPc v).regs = s.regs := rfl
@[simp] theorem State.setPc_pc : (s.setPc v).pc = v := rfl
@[simp] theorem State.setPc_runState : (s.setPc v).runState = s.runState := rfl
@[simp] theorem State.setPc_haltCause : (s.setPc v).haltCause = s.haltCause := rfl
@[simp] theorem State.setPc_haltInstr : (s.setPc v).haltInstr = s.haltInstr := rfl
@[simp] theorem State.setPc_mem : (s.setPc v).mem = s.mem := rfl
@[simp] theorem State.setPc_memLen : (s.setPc v).memLen = s.memLen := rfl
@[simp] theorem State.setPc_reg : (s.setPc v).reg r = s.reg r := rfl

@[simp] theorem State.advancePc_regs : s.advancePc.regs = s.regs := rfl
@[simp] theorem State.advancePc_pc : s.advancePc.pc = s.pc + 4 := rfl
@[simp] theorem State.advancePc_runState : s.advancePc.runState = s.runState := rfl
@[simp] theorem State.advancePc_haltCause : s.advancePc.haltCause = s.haltCause := rfl
@[simp] theorem State.advancePc_haltInstr : s.advancePc.haltInstr = s.haltInstr := rfl
@[simp] theorem State.advancePc_mem : s.advancePc.mem = s.mem := rfl
@[simp] theorem State.advancePc_memLen : s.advancePc.memLen = s.memLen := rfl
@[simp] theorem State.advancePc_reg : s.advancePc.reg r = s.reg r := rfl

@[simp] theorem State.halt_regs : (s.halt c f).regs = s.regs := rfl
@[simp] theorem State.halt_pc : (s.halt c f).pc = s.pc := rfl
@[simp] theorem State.halt_runState : (s.halt c f).runState = .halted := rfl
@[simp] theorem State.halt_haltCause : (s.halt c f).haltCause = some c := rfl
@[simp] theorem State.halt_haltInstr : (s.halt c f).haltInstr = some f := rfl
@[simp] theorem State.halt_mem : (s.halt c f).mem = s.mem := rfl
@[simp] theorem State.halt_memLen : (s.halt c f).memLen = s.memLen := rfl
@[simp] theorem State.halt_reg : (s.halt c f).reg r = s.reg r := rfl

@[simp] theorem State.write32_regs (a : Word) : (s.write32 a v).regs = s.regs := by unfold write32; split <;> rfl
@[simp] theorem State.write32_pc (a : Word) : (s.write32 a v).pc = s.pc := by unfold write32; split <;> rfl
@[simp] theorem State.write32_runState (a : Word) : (s.write32 a v).runState = s.runState := by
  unfold write32; split <;> rfl
@[simp] theorem State.write32_haltCause (a : Word) : (s.write32 a v).haltCause = s.haltCause := by
  unfold write32; split <;> rfl
@[simp] theorem State.write32_haltInstr (a : Word) : (s.write32 a v).haltInstr = s.haltInstr := by
  unfold write32; split <;> rfl
@[simp] theorem State.write32_memLen (a : Word) : (s.write32 a v).memLen = s.memLen := by
  unfold write32; split <;> rfl
@[simp] theorem State.write32_reg (a : Word) : (s.write32 a v).reg r = s.reg r := by unfold write32; split <;> rfl

/-- The register file after a register write (10_state.md R22). -/
theorem State.reg_setReg : (s.setReg r v).reg q = if q = r then v else s.reg q := by
  unfold State.reg State.setReg
  rw [Vector.getElem_set]
  by_cases h : q = r
  · simp [h]
  · have : r.toNat ≠ q.toNat := fun e => h (BitVec.eq_of_toNat_eq e.symm)
    simp [h, this]

end fields

end Sys2Proof.Machine
end

