-- ==== Sys2Proof/Laws/Memory.lean ====
section
/-! SUPPORT. What one byte written does to memory, and that every memory operation keeps the canonical form. -/

namespace Sys2Proof.Machine

/-- A put cell is the first one read. -/
theorem Memory.readByte_consByte {m : Memory} {a : Nat} {v : Byte} (h : ∀ c ∈ m, a < c.1) (b : Nat) :
    (Memory.consByte a v m).readByte b = if b = a then v else m.readByte b := by
  have miss : ∀ {n : Memory}, (∀ c ∈ n, a < c.1) → n.readByte a = Config.unlistedByte := by
    intro n
    induction n with
    | nil => intro _; rfl
    | cons c n ih =>
      intro hn
      have := hn c (by simp)
      rw [readByte, if_neg (by omega)]
      exact ih fun d hd => hn d (by simp [hd])
  unfold consByte
  split
  · subst v
    split
    · subst b; exact miss h
    · rfl
  · rw [readByte]
    by_cases e : b = a
    · simp [e]
    · simp [e, Ne.symm e]

/-- Memory in canonical form, one byte written, read at any byte. -/
theorem Memory.readByte_writeByte {m : Memory} (h : m.wf) (a b : Nat) (v : Byte) :
    (m.writeByte a v).readByte b = if b = a then v else m.readByte b := by
  induction m with
  | nil => exact readByte_consByte (by simp) b
  | cons c m ih =>
    obtain ⟨hp, hv⟩ := h
    rw [List.pairwise_cons] at hp
    have tail : Memory.wf m := ⟨hp.2, fun d hd => hv d (by simp [hd])⟩
    rw [writeByte]
    split
    · rw [readByte, readByte, ih tail]
      split <;> split <;> first | rfl | omega
    · split
      · rename_i hc
        rw [readByte_consByte (by simpa [← hc] using hp.1), readByte]
        split
        · rfl
        · rw [if_neg (by omega)]
      · rw [readByte_consByte]
        intro d hd
        rcases List.mem_cons.1 hd with rfl | hd
        · omega
        · have := hp.1 d hd; omega

theorem Memory.mem_consByte {m : Memory} {a : Nat} {v : Byte} {c : Host.Cell} (h : c ∈ Memory.consByte a v m) :
    c = (a, v) ∨ c ∈ m := by
  unfold consByte at h
  split at h
  · exact .inr h
  · exact List.mem_cons.1 h

/-- A byte written brings in no cell but its own. -/
theorem Memory.mem_writeByte {m : Memory} {a : Nat} {v : Byte} {c : Host.Cell} (h : c ∈ m.writeByte a v) :
    c = (a, v) ∨ c ∈ m := by
  induction m with
  | nil => exact mem_consByte h
  | cons d m ih =>
    rw [writeByte] at h
    split at h
    · rcases List.mem_cons.1 h with rfl | h
      · simp
      · rcases ih h with h | h <;> simp [h]
    · split at h
      · rcases mem_consByte h with h | h <;> simp [h]
      · exact mem_consByte h

theorem Memory.wf_consByte {m : Memory} (h : m.wf) {a : Nat} {v : Byte} (lo : ∀ c ∈ m, a < c.1) :
    (Memory.consByte a v m).wf := by
  unfold consByte
  split
  · exact h
  · rename_i hv
    refine ⟨List.pairwise_cons.2 ⟨lo, h.1⟩, fun c hc => ?_⟩
    rcases List.mem_cons.1 hc with rfl | hc
    · exact hv
    · exact h.2 c hc

/-- A byte written keeps the canonical form. -/
theorem Memory.wf_writeByte {m : Memory} (h : m.wf) (a : Nat) (v : Byte) : (m.writeByte a v).wf := by
  induction m with
  | nil => exact wf_consByte h (by simp)
  | cons c m ih =>
    obtain ⟨hp, hv⟩ := h
    rw [List.pairwise_cons] at hp
    have tail : Memory.wf m := ⟨hp.2, fun d hd => hv d (by simp [hd])⟩
    rw [writeByte]
    split
    · refine ⟨List.pairwise_cons.2 ⟨fun d hd => ?_, (ih tail).1⟩, fun d hd => ?_⟩
      · rcases mem_writeByte hd with rfl | hd
        · assumption
        · exact hp.1 d hd
      · rcases List.mem_cons.1 hd with rfl | hd
        · exact hv d (by simp)
        · exact (ih tail).2 d hd
    · split
      · rename_i e
        exact wf_consByte tail fun d hd => e ▸ hp.1 d hd
      · refine wf_consByte ⟨List.pairwise_cons.2 hp, hv⟩ fun d hd => ?_
        rcases List.mem_cons.1 hd with rfl | hd
        · omega
        · have := hp.1 d hd; omega

/-- Consecutive bytes written keep the canonical form. -/
theorem Memory.wf_writeBytes {m : Memory} (h : m.wf) (a : Nat) (bs : List Byte) : (m.writeBytes a bs).wf := by
  induction bs generalizing m a with
  | nil => exact h
  | cons b bs ih => exact ih (wf_writeByte h a b) (a + 1)

/-- Consecutive bytes written bring in no cell outside their range. -/
theorem Memory.mem_writeBytes {m : Memory} {a : Nat} {bs : List Byte} {c : Host.Cell}
    (h : c ∈ m.writeBytes a bs) : (a ≤ c.1 ∧ c.1 < a + bs.length) ∨ c ∈ m := by
  induction bs generalizing m a with
  | nil => exact .inr h
  | cons b bs ih =>
    rcases ih h with h | h
    · left; simp only [List.length_cons]; omega
    · rcases mem_writeByte h with rfl | h
      · left; simp
      · exact .inr h

/-- Consecutive bytes written, read at any byte. -/
theorem Memory.readByte_writeBytes {m : Memory} (h : m.wf) (a b : Nat) (bs : List Byte) :
    (m.writeBytes a bs).readByte b = if a ≤ b then bs.getD (b - a) (m.readByte b) else m.readByte b := by
  induction bs generalizing m a with
  | nil => simp [writeBytes]
  | cons v bs ih =>
    rw [writeBytes, ih (wf_writeByte h a v), readByte_writeByte h]
    by_cases e : b = a
    · subst e; simp
    · by_cases l : a ≤ b
      · have : b - a = (b - (a + 1)) + 1 := by omega
        rw [if_pos (by omega), if_pos l, if_neg e, this]
        simp
      · rw [if_neg (by omega), if_neg l, if_neg e]

/-- A word written, read at any byte (20_memory.md R38, R42). -/
theorem Memory.readByte_writeWord {m : Memory} (h : m.wf) (a b : Nat) (v : Word) :
    (m.writeWord a v).readByte b = if a ≤ b ∧ b < a + 4 then byteOfWord v (b - a) else m.readByte b := by
  rw [writeWord, readByte_writeBytes h]
  by_cases l : a ≤ b
  · obtain ⟨k, rfl⟩ := Nat.exists_eq_add_of_le l
    rw [if_pos l, Nat.add_sub_cancel_left]
    match k with
    | 0 | 1 | 2 | 3 => simp
    | k + 4 => simp
  · rw [if_neg l, if_neg (by omega)]

/-- The four bytes of a word make the word. -/
theorem wordOfBytes_byteOfWord (v : Word) :
    wordOfBytes (byteOfWord v 0) (byteOfWord v 1) (byteOfWord v 2) (byteOfWord v 3) = v := by
  unfold wordOfBytes byteOfWord
  ext k hk; simp; grind

/-- Each byte of a word read is the byte of memory at its place (20_memory.md R38, R41). -/
theorem Memory.byteOfWord_readWord (m : Memory) (a : Nat) {k : Nat} (hk : k < 4) :
    byteOfWord (m.readWord a) k = m.readByte (a + k) := by
  unfold readWord wordOfBytes byteOfWord
  match k, hk with
  | 0, _ | 1, _ | 2, _ | 3, _ => ext i hi; simp; try grind

/-- A word written keeps the canonical form. -/
theorem Memory.wf_writeWord {m : Memory} (h : m.wf) (a : Nat) (v : Word) : (m.writeWord a v).wf :=
  wf_writeBytes h a _

/-- `write32` keeps the canonical form. -/
theorem State.wf_write32 {s : State} (h : s.mem.wf) (a v : Word) : (s.write32 a v).mem.wf := by
  unfold write32
  split
  · exact Memory.wf_writeWord h _ _
  · exact h

end Sys2Proof.Machine
end

