-- ==== Sys2Proof/Laws/Ops.lean ====
section
/-! SUPPORT. What each shared operation can do, said once. -/

namespace Sys2Proof.Machine

/-- A cycle that answers a next state either advanced past a success or halted with a result. -/
theorem settle_next {f : Fields} {s t : State} {r : ExecutionResult} (h : settle f s r = .next t) :
    (∃ u, r = .success u ∧ t = u.advancePc) ∨ ∃ c, r = .raised c ∧ t = s.halt c f := by
  cases r with
  | success u => exact .inl ⟨u, rfl, by simpa [settle, eq_comm] using h⟩
  | raised c => exact .inr ⟨c, rfl, by simpa [settle, eq_comm] using h⟩
  | refuse q => simp [settle] at h

/-- A cycle never faults. -/
theorem settle_ne_fault (f : Fields) (s : State) (r : ExecutionResult) (q : Fault) : settle f s r ≠ .fault q := by
  cases r <;> simp [settle]

/-- A step that answers a next state was taken while running, and ran the decoded instruction or, for a word outside
the opcode map, halted. -/
theorem step_next {s t : State} (h : step s = .next t) :
    s.runState = .running ∧
      ((∃ i, decode s.fetch = .ok i ∧ exec i s = .next t) ∨
        ∃ e, decode s.fetch = .error e ∧ t = s.halt .unknownOpcode (decodeFields s.fetch)) := by
  unfold step at h
  cases hr : s.runState with
  | halted => simp [hr] at h
  | running =>
    refine ⟨rfl, ?_⟩
    cases hd : decode s.fetch with
    | ok i => exact .inl ⟨i, rfl, by simpa [hr, hd] using h⟩
    | error e => exact .inr ⟨e, rfl, by simpa [hr, hd, execUnknown, settle, eq_comm] using h⟩

/-- Halting keeps all but the run state and the report. -/
theorem halt_haltedFrom (s : State) (c : HaltCause) (f : Fields) : HaltedFrom s c f (s.halt c f) :=
  ⟨rfl, rfl, rfl, rfl, fun _ _ => rfl, rfl, fun _ => rfl⟩

/-- An access in bounds reads the four bytes from its address up. -/
theorem State.read32_inBounds {s : State} {a : Word} (h : a.toNat + 4 ≤ s.memLen) :
    s.read32 a = s.mem.readWord a.toNat := by
  simp [read32, inBounds, h]

/-- An access out of bounds reads zero. -/
theorem State.read32_outOfBounds {s : State} {a : Word} (h : s.memLen < a.toNat + 4) : s.read32 a = 0 := by
  simp [read32, inBounds, h]

/-- A write in bounds replaces the word at its address. -/
theorem State.write32_inBounds {s : State} {a : Word} (h : a.toNat + 4 ≤ s.memLen) (v : Word) :
    s.write32 a v = { s with mem := s.mem.writeWord a.toNat v } := by
  simp [write32, inBounds, h]

/-- A word written in bounds is the word read back (20_memory.md R49). -/
theorem State.read32_write32 {s : State} {a v : Word} (hm : s.mem.wf) (h : a.toNat + 4 ≤ s.memLen) :
    (s.write32 a v).read32 a = v := by
  rw [read32_inBounds (by simpa using h), write32_inBounds h]
  simp only [Memory.readWord, Memory.readByte_writeWord hm]
  simpa using wordOfBytes_byteOfWord v

/-- A write brings in no cell but the four bytes at its address, which lie in bounds. -/
theorem State.mem_write32 {s : State} {a v : Word} {c : Host.Cell} (h : c ∈ (s.write32 a v).mem) :
    (a.toNat ≤ c.1 ∧ c.1 < a.toNat + 4 ∧ a.toNat + 4 ≤ s.memLen) ∨ c ∈ s.mem := by
  unfold write32 inBounds at h
  split at h
  · rename_i hb
    rcases Memory.mem_writeBytes h with h | h
    · simp at hb h; omega
    · exact .inr h
  · exact .inr h

/-- The alignment test says that the word is no multiple of 4. -/
theorem misaligned_iff {a : Word} : misaligned a = true ↔ a.toNat % 4 ≠ 0 := by simp [misaligned]

/-- BNE's compare says that the words differ. -/
theorem notEqual_iff {a b : Word} : notEqual a b = true ↔ a ≠ b := by simp [notEqual]

/-- The bits of LHI's result. -/
theorem getLsbD_insertLow16 (a : Word) (m : Half) {k : Nat} (hk : k < 32) :
    (insertLow16 a m).getLsbD k = if k < 16 then m.getLsbD k else a.getLsbD k := by
  have mask : ∀ k < 32, (0xFFFF0000#32).getLsbD k = decide (16 ≤ k) := by decide
  rw [insertLow16, BitVec.getLsbD_or, BitVec.getLsbD_and, mask k hk]
  simp [zext32]; grind

/-- The bits of LUHI's result. -/
theorem getLsbD_insertHigh16 (a : Word) (m : Half) {k : Nat} (hk : k < 32) :
    (insertHigh16 a m).getLsbD k = if k < 16 then a.getLsbD k else m.getLsbD (k - 16) := by
  have mask : ∀ k < 32, (0x0000FFFF#32).getLsbD k = decide (k < 16) := by decide
  rw [insertHigh16, BitVec.getLsbD_or, BitVec.getLsbD_and, mask k hk]
  simp [zext32]; grind

/-- A destination field below 32 names the register of that number. -/
theorem destReg_of_lt {ra3 : BitVec 8} (h : ra3.toNat < 32) : destReg ra3 = some (ra3.extractLsb' 0 5) := by
  simp [destReg, h]

/-- A destination field of 32 or more names no register. -/
theorem destReg_of_ge {ra3 : BitVec 8} (h : 32 ≤ ra3.toNat) : destReg ra3 = none := by
  simp [destReg, h]

end Sys2Proof.Machine
end

