-- ==== Sys2Proof/Laws/PerInstr.lean ====
section
/-! SUPPORT. One lemma per instruction: the five fields the decoder takes from its word, which are what a halt
latches. -/

namespace Sys2Proof.Laws.LatchedFields

/-- The five fields of an instruction's word, each bit of the word in its place (30_encoding.md R53, R60). -/
def Statement (i : Instr) : Prop :=
  i.fields =
    match i with
    | .nop u => ⟨0, u.extractLsb' 21 5, u.extractLsb' 16 5, u.extractLsb' 0 8, u.extractLsb' 0 16⟩
    | .jmp a u o => ⟨1, a, u, o.extractLsb' 0 8, o⟩
    | .lw a b u => ⟨2, a, b, u.extractLsb' 0 8, u⟩
    | .sw a b u => ⟨3, a, b, u.extractLsb' 0 8, u⟩
    | .lhi a u m => ⟨4, a, u, m.extractLsb' 0 8, m⟩
    | .luhi a u m => ⟨5, a, u, m.extractLsb' 0 8, m⟩
    | .bne a b o => ⟨6, a, b, o.extractLsb' 0 8, o⟩
    | .mv a b u => ⟨7, a, b, u.extractLsb' 0 8, u⟩
    | .add a b u d => ⟨8, a, b, d, halfOfBytes u d⟩
    | .brk u => ⟨9, u.extractLsb' 21 5, u.extractLsb' 16 5, u.extractLsb' 0 8, u.extractLsb' 0 16⟩

/-- The fields of a word written by `wordOfFields`. -/
theorem decodeFields_wordOfFields (op : BitVec 6) (a b : RegIdx) (m : Half) :
    decodeFields (wordOfFields op a b m) = ⟨op, a, b, m.extractLsb' 0 8, m⟩ := by
  simp only [decodeFields, wordOfFields, Fields.mk.injEq]
  refine ⟨?_, ?_, ?_, ?_, ?_⟩ <;>
    (ext k hk; simp; try grind)

/-- The fields of a word written by `wordOfOpcode`. -/
theorem decodeFields_wordOfOpcode (op : BitVec 6) (u : BitVec 26) :
    decodeFields (wordOfOpcode op u) =
      ⟨op, u.extractLsb' 21 5, u.extractLsb' 16 5, u.extractLsb' 0 8, u.extractLsb' 0 16⟩ := by
  simp only [decodeFields, wordOfOpcode, Fields.mk.injEq]
  refine ⟨?_, ?_, ?_, ?_, ?_⟩ <;>
    (ext k hk; simp; try grind)

theorem nop (u : BitVec 26) : Statement (.nop u) := decodeFields_wordOfOpcode 0 u

theorem jmp (a : RegIdx) (u : BitVec 5) (o : Half) : Statement (.jmp a u o) := decodeFields_wordOfFields 1 a u o

theorem lw (a b : RegIdx) (u : BitVec 16) : Statement (.lw a b u) := decodeFields_wordOfFields 2 a b u

theorem sw (a b : RegIdx) (u : BitVec 16) : Statement (.sw a b u) := decodeFields_wordOfFields 3 a b u

theorem lhi (a : RegIdx) (u : BitVec 5) (m : Half) : Statement (.lhi a u m) := decodeFields_wordOfFields 4 a u m

theorem luhi (a : RegIdx) (u : BitVec 5) (m : Half) : Statement (.luhi a u m) := decodeFields_wordOfFields 5 a u m

theorem bne (a b : RegIdx) (o : Half) : Statement (.bne a b o) := decodeFields_wordOfFields 6 a b o

theorem mv (a b : RegIdx) (u : BitVec 16) : Statement (.mv a b u) := decodeFields_wordOfFields 7 a b u

theorem add (a b : RegIdx) (u d : BitVec 8) : Statement (.add a b u d) := by
  have low : (halfOfBytes u d).extractLsb' 0 8 = d := by
    ext k hk; simp [halfOfBytes]; grind
  exact (decodeFields_wordOfFields 8 a b (halfOfBytes u d)).trans (by rw [low])

theorem brk (u : BitVec 26) : Statement (.brk u) := decodeFields_wordOfOpcode 9 u

end Sys2Proof.Laws.LatchedFields
end

