-- ==== Sys2Proof/Laws/Reach.lean ====
section
/-! SUPPORT. The induction over runs, said once: what holds at the start and is kept by every step of a run holds of
every state the run reaches. -/

namespace Sys2Proof.Machine

/-- What every step taken where `P` holds keeps, a run of such steps keeps. -/
theorem ReachesWhile.keeps {P Q : State → Prop}
    (keep : ∀ {s t : State}, P s → Q s → Machine.step s = .next t → Q t) {s t : State} (run : ReachesWhile P s t)
    (start : Q s) : Q t := by
  induction run with
  | refl => exact start
  | step _ p h ih => exact keep p ih h

/-- A run whose every step meets a condition meets every weaker one. -/
theorem ReachesWhile.mono {P Q : State → Prop} (weaker : ∀ s, P s → Q s) {s t : State} (run : ReachesWhile P s t) :
    ReachesWhile Q s t := by
  induction run with
  | refl => exact .refl _
  | step _ p h ih => exact .step ih (weaker _ p) h

/-- A store into one byte of a range is a store into the range. -/
theorem StoresInto.of_byte {a n k : Nat} {s : State} (hk : k < n) (h : StoresInto (a + k) 1 s) : StoresInto a n s := by
  obtain ⟨v, b, x, fetched, inside, below, above⟩ := h
  exact ⟨v, b, x, fetched, inside, by omega, by omega⟩

end Sys2Proof.Machine
end

