-- ==== Sys2Proof/Tests/Slice0.lean ====
section
/-! SUPPORT. Tests against the spec's own vectors (95_test_vectors.md), and for each statement with hypotheses a
witness that meets them. Where a comment names no other place, the expected value is that vector's. -/

namespace Sys2Proof.Tests

open Sys2Proof Sys2Proof.Machine

/-- The reset state with some registers set. -/
def withRegs (l : List (RegIdx × Word)) : State := l.foldl (fun s p => s.setReg p.1 p.2) State.reset

/-- The next state, if there is one. -/
def nextOf : Host.Outcome State Fault Refusal → Option State
  | .next t => some t
  | .fault _ => none
  | .refused _ => none

/-- One step of `s` on the word `w`. -/
def after (s : State) (w : Nat) : Option State := nextOf (step (s.withFetchWord 32 w))

/-! ### Well-formedness -/

theorem test_wellFormed_refuses_add_32 : (Instr.add 1 2 0 32).wellFormed = false := by decide
theorem test_wellFormed_takes_add_31 : (Instr.add 1 2 0 31).wellFormed = true := by decide

/-! ### Decoding: one written word per constructor (§2.1, §2.3 to §2.9) -/

theorem test_decode_nop : decodeTableWord 32 0x03FFFFFF = some (.nop 0x3FFFFFF) := by decide
theorem test_decode_jmp : decodeTableWord 32 0x04200010 = some (.jmp 1 0 16) := by decide
theorem test_decode_lw : decodeTableWord 32 0x0823FFFF = some (.lw 1 3 0xFFFF) := by decide
theorem test_decode_sw : decodeTableWord 32 0x0C410000 = some (.sw 2 1 0) := by decide
theorem test_decode_lhi : decodeTableWord 32 0x10208000 = some (.lhi 1 0 0x8000) := by decide
theorem test_decode_luhi : decodeTableWord 32 0x14201234 = some (.luhi 1 0 0x1234) := by decide
theorem test_decode_bne : decodeTableWord 32 0x1824FFF8 = some (.bne 1 4 0xFFF8) := by decide
theorem test_decode_mv : decodeTableWord 32 0x1CA90000 = some (.mv 5 9 0) := by decide
theorem test_decode_add : decodeTableWord 32 0x2022FF03 = some (.add 1 2 0xFF 3) := by decide
theorem test_decode_brk : decodeTableWord 32 0x24000000 = some (.brk 0) := by decide
theorem test_decode_first_unknown : decodeTableWord 32 0x28000000 = none := by decide
theorem test_decode_last_unknown : decodeTableWord 32 0xFFFFFFFF = none := by decide
theorem test_fields_all_ones : decodeFields 0xFFFFFFFF = ⟨63, 31, 31, 255, 0xFFFF⟩ := by decide
theorem test_encode_bne : encode (.bne 1 4 0xFFF8) = 0x1824FFF8 := by decide
theorem test_encode_add : encode (.add 1 2 0 3) = 0x20220003 := by decide

/-! ### The memory engine (§2.2) -/

theorem test_read32_unaligned :
    ((State.reset.write32 0x900 0x12345678).write32 0x904 0x9A).read32 0x901 = 0x9A123456 := by decide
theorem test_write32_little_endian :
    (State.reset.write32 0x900 0xDEADBEEF).mem = [(0x900, 0xEF), (0x901, 0xBE), (0x902, 0xAD), (0x903, 0xDE)] := by
  decide
theorem test_write32_last_word : (State.reset.write32 0xFFC 0x04030201).read32 0xFFC = 0x04030201 := by decide
theorem test_write32_straddling : (State.reset.write32 0xFFE 0x11111111).mem = [] := by decide
theorem test_read32_top : State.reset.read32 0xFFFFFFFC = 0 := by decide
theorem test_writeByte_default_removes : (Memory.writeByte [(5, 1)] 5 0) = [] := by decide

/-! ### One step of each instruction (§2.3 to §2.9) -/

theorem test_nop : (after State.reset 0x03FFFFFF).map (·.pc) = some 0x804 := by decide
theorem test_nop_wraps : (nextOf (step (State.reset.setPc 0xFFFFFFFC))).map (·.pc) = some 0 := by decide
theorem test_brk :
    (after State.reset 0x27FFFFFF).map (fun t => (t.runState, t.haltCause, t.pc)) =
      some (.halted, some .breakpointHit, 0x800) := by decide
theorem test_jmp_double_advance : (after (withRegs [(1, 0x800)]) 0x04200004).map (·.pc) = some 0x808 := by decide
theorem test_jmp_misaligned :
    (after (withRegs [(1, 0x800)]) 0x04200002).map (fun t => (t.haltCause, t.pc)) =
      some (some .addressMisalignment, 0x800) := by decide
theorem test_bne_taken : (after (withRegs [(1, 7), (2, 0)]) 0x18228000).map (·.pc) = some 0xFFFF8804 := by decide
theorem test_bne_tests_operand :
    (after (withRegs [(1, 1), (2, 2)]) 0x18220010).map (fun t => (t.haltCause, t.pc)) =
      some (some .addressMisalignment, 0x800) := by decide
theorem test_lw_same_register :
    (after ((withRegs [(1, 0x900)]).write32 0x900 0x11223344) 0x08210000).map (·.reg 1) = some 0x11223344 := by decide
theorem test_lw_straddling : (after (withRegs [(1, 0xFFE), (3, 7)]) 0x08230000).map (·.reg 3) = some 0 := by decide
theorem test_sw_same_register :
    (after (withRegs [(1, 0x904)]) 0x0C210000).map (fun t => (t.mem.readByte 0x904, t.mem.readByte 0x905)) =
      some (0x04, 0x09) := by decide
theorem test_sw_out_of_bounds :
    (after (withRegs [(1, 0x80000000), (2, 5)]) 0x0C410000).map (·.read32 0) = some 0 := by decide
theorem test_lhi : (after (withRegs [(1, 0xAAAABBBB)]) 0x10201234).map (·.reg 1) = some 0xAAAA1234 := by decide
theorem test_lhi_no_sign : (after (withRegs [(1, 0)]) 0x10208000).map (·.reg 1) = some 0x00008000 := by decide
theorem test_luhi : (after (withRegs [(1, 0xAAAABBBB)]) 0x14201234).map (·.reg 1) = some 0x1234BBBB := by decide
theorem test_mv :
    (after (withRegs [(5, 0x12345678)]) 0x1CA90000).map (fun t => (t.reg 9, t.reg 5)) =
      some (0x12345678, 0x12345678) := by decide
theorem test_add_wraps : (after (withRegs [(1, 0xFFFFFFFF), (2, 1)]) 0x20220003).map (·.reg 3) = some 0 := by decide
theorem test_add_refused :
    step ((withRegs [(1, 2)]).withFetchWord 32 0x20220020) = .refused .undefinedRegisterIndex := rfl
theorem test_unknown_opcode :
    (after State.reset 0x3C000000).map (fun t => (t.haltCause, t.haltInstr.map (·.op), t.pc)) =
      some (some .unknownOpcode, some 15, 0x800) := by decide
theorem test_unknown_unaligned_fetch :
    (after (State.reset.setPc 0x806) 0x77881122).map (fun t => (t.haltInstr.map (·.op), t.pc)) =
      some (some 29, 0x806) := by decide
theorem test_halted_has_no_step :
    step (State.reset.halt .breakpointHit (decodeFields 0x24000000)) = .fault .halted := rfl

/-! ### The written form (30_encoding.md R76) -/

theorem test_asm_bne : asmOfWord 0x1824FFF8 = "BNE r1, r4, -8" := by decide
theorem test_asm_sw : asmOfWord 0x0C410000 = "SW r2, [r1]" := by decide
theorem test_asm_unknown : asmOfWord 0x3C000000 = ".word 0x3C000000" := by decide

/-! ### Witnesses: states and operands that meet the hypotheses of each statement that has any -/

theorem witness_EncodeDecodeRoundTrip : decode 0x1824FFF8 = .ok (.bne 1 4 0xFFF8) := rfl
/-- Each clause of `OpcodeMapByMaskAndMatch` at a word with every other bit set. -/
theorem witness_OpcodeMapByMaskAndMatch :
    (0x03FFFFFF#32 &&& 0xFC000000 = 0x00000000) ∧ (0x07FFFFFF#32 &&& 0xFC000000 = 0x04000000) ∧
    (0x0BFFFFFF#32 &&& 0xFC000000 = 0x08000000) ∧ (0x0FFFFFFF#32 &&& 0xFC000000 = 0x0C000000) ∧
    (0x13FFFFFF#32 &&& 0xFC000000 = 0x10000000) ∧ (0x17FFFFFF#32 &&& 0xFC000000 = 0x14000000) ∧
    (0x1BFFFFFF#32 &&& 0xFC000000 = 0x18000000) ∧ (0x1FFFFFFF#32 &&& 0xFC000000 = 0x1C000000) ∧
    (0x23FFFFFF#32 &&& 0xFC000000 = 0x20000000) ∧ (0x27FFFFFF#32 &&& 0xFC000000 = 0x24000000) ∧
    0x28000000 ≤ (0x28000000#32 &&& 0xFC000000).toNat := by decide
theorem witness_OpcodeIsWordShifted : 10 ≤ (0x28000000#32).toNat >>> 26 := by decide
/-- Out of bounds by one, and the last word in bounds. -/
theorem witness_WordReadByBounds :
    State.reset.memLen < (0xFFD : Word).toNat + 4 ∧ (0xFFC : Word).toNat + 4 ≤ State.reset.memLen := by decide
theorem witness_WordWriteByBounds :
    State.reset.mem.wf ∧ State.reset.memLen < (0xFFFFFFFF : Word).toNat + 4 ∧
      (0xFFC : Word).toNat + 4 ≤ State.reset.memLen := by decide
theorem witness_RepeatedWriteChangesNothing : (State.reset.write32 0x900 0xDEADBEEF).mem.wf := by decide
theorem witness_CanonicalMemoryIsItsBytes :
    Memory.wf [(3, 1)] ∧ Memory.wf (Memory.writeByte [] 3 1) ∧
      ∀ a : Nat, Memory.readByte [(3, 1)] a = (Memory.writeByte [] 3 1).readByte a :=
  ⟨by decide, by decide, fun _ => rfl⟩
/-- `x[2] = 0x24000000` to be stored at the address in `x[1]`, which `x[4]` holds too. -/
def storeAt (a : Word) : State := withRegs [(1, a), (4, a), (2, 0x24000000)]
def storeTop : State := storeAt 0xFFC

/-- A state whose next instruction is the zero word stores nothing. -/
theorem nop_stores_nothing {a n : Nat} {s : State} (h : decode s.fetch = .ok (.nop 0)) : ¬ StoresInto a n s := by
  rintro ⟨v, b, x, e, _⟩
  rw [h] at e
  cases e

/-- A state whose next instruction is the zero word writes no register. -/
theorem nop_writes_nothing {r : RegIdx} {s : State} (h : decode s.fetch = .ok (.nop 0)) : ¬ WritesRegister r s := by
  rintro ⟨i, e, w⟩
  rw [h] at e
  cases e
  cases w

/-- A store at the top of memory, a NOP, and then a load from the same address through another register. -/
theorem witness_LoadAfterStoreReturnsStoredWord :
    storeTop.mem.wf ∧ (storeTop.reg 1).toNat + 4 ≤ storeTop.memLen ∧
      ∃ t u, exec (.sw 2 1 0) storeTop = .next t ∧ step t = .next u ∧
        ReachesWhile (fun w => ¬ StoresInto (storeTop.reg 1).toNat 4 w) t u ∧ u.reg 4 = storeTop.reg 1 :=
  ⟨by decide, by decide, _, _, rfl, rfl, .step (.refl _) (nop_stores_nothing rfl) rfl, by decide⟩
/-- A store to the next instruction's address, to an address fetched two steps later, and to the second byte of the
next instruction's word. -/
theorem witness_StoreSeenByFetch_next :
    (storeAt 0x804).mem.wf ∧ ((storeAt 0x804).reg 1).toNat + 4 ≤ (storeAt 0x804).memLen ∧
      (storeAt 0x804).reg 1 = (storeAt 0x804).pc + 4 := by decide
theorem witness_StoreSeenByFetch_later :
    ((storeAt 0x808).reg 1).toNat + 4 ≤ (storeAt 0x808).memLen ∧
      ∃ t u, exec (.sw 2 1 0) (storeAt 0x808) = .next t ∧
        ReachesWhile (fun w => ¬ StoresInto ((storeAt 0x808).reg 1).toNat 4 w) t u ∧
        u.pc = (storeAt 0x808).reg 1 :=
  ⟨by decide, _, _, rfl, .step (.refl _) (nop_stores_nothing rfl) rfl, by decide⟩
theorem witness_StoreSeenByFetch_byte :
    ((storeAt 0x805).reg 1).toNat + 4 ≤ (storeAt 0x805).memLen ∧
      ∃ t, exec (.sw 2 1 0) (storeAt 0x805) = .next t ∧ t.pc.toNat + 4 ≤ t.memLen ∧
        t.pc.toNat + 1 = ((storeAt 0x805).reg 1).toNat + 0 :=
  ⟨by decide, _, rfl, by decide, by decide⟩
theorem witness_JmpContinuesFourAfterTarget : ((withRegs [(1, 0x802)]).reg 1 + sext32 2).toNat % 4 = 0 := by decide
theorem witness_JmpToUnalignedTargetHalts : ((withRegs [(1, 0x800)]).reg 1 + sext32 0xFFFF).toNat % 4 ≠ 0 := by decide
theorem witness_BneTakenBranches :
    (withRegs [(1, 1), (2, 8)]).reg 1 ≠ (withRegs [(1, 1), (2, 8)]).reg 2 ∧
      ((withRegs [(1, 1), (2, 8)]).reg 2).toNat % 4 = 0 := by decide
theorem witness_BneEqualFallsThrough : (withRegs [(1, 3), (2, 3)]).reg 1 = (withRegs [(1, 3), (2, 3)]).reg 2 := by
  decide
theorem witness_BneUnalignedOperandHalts :
    (withRegs [(1, 1), (2, 2)]).reg 1 ≠ (withRegs [(1, 1), (2, 2)]).reg 2 ∧
      ((withRegs [(1, 1), (2, 2)]).reg 2).toNat % 4 ≠ 0 := by decide
theorem witness_LwLoadsWord : State.reset.memLen < ((withRegs [(1, 0xFFD)]).reg 1).toNat + 4 := by decide
/-- Both clauses of `SwStoresWord`, at the last address in bounds and the first out of bounds. -/
theorem witness_SwStoresWord :
    (withRegs [(1, 0xFFC), (2, 0xFFD)]).mem.wf ∧
      ((withRegs [(1, 0xFFC)]).reg 1).toNat + 4 ≤ State.reset.memLen ∧
      State.reset.memLen < ((withRegs [(2, 0xFFD)]).reg 2).toNat + 4 := by decide
theorem witness_AddWrapsModuloWord : (31 : BitVec 8).toNat < 32 := by decide
theorem witness_AddRefusesMissingRegister : 32 ≤ (32 : BitVec 8).toNat := by decide
/-- MV into `r0`, then a NOP that leaves it alone; and ADD into `r31`, the last field value that names a register. -/
theorem witness_EveryRegisterKeepsWhatIsWritten :
    (∃ t u, exec (.mv 1 0 0) (withRegs [(1, 7)]) = .next t ∧ step t = .next u ∧
      ReachesWhile (fun w => ¬ WritesRegister 0 w) t u ∧ u.reg 0 = 7) ∧
    (31 : BitVec 8).toNat = (31 : RegIdx).toNat :=
  ⟨⟨_, _, rfl, rfl, .step (.refl _) (nop_writes_nothing rfl) rfl, by decide⟩, by decide⟩
theorem witness_Li32EitherOrderBuildsConstant :
    li32 1 0xDEADBEEF = [.lhi 1 0 0xBEEF, .luhi 1 0 0xDEAD] := by decide
theorem witness_StepRunsDecodedInstruction :
    (State.reset.withFetchWord 32 0x24000000).runState = .running ∧
      (State.reset.withFetchWord 32 0x24000000).pc.toNat + 4 ≤ (State.reset.withFetchWord 32 0x24000000).memLen ∧
      decode (State.reset.withFetchWord 32 0x24000000).fetch = .ok (.brk 0) := ⟨rfl, by decide, rfl⟩
theorem witness_OutOfBoundsFetchIsNop :
    (State.reset.setPc 0xFFE).runState = .running ∧
      (State.reset.setPc 0xFFE).memLen < (State.reset.setPc 0xFFE).pc.toNat + 4 := by decide
/-- At the top of the address space, so that one step wraps. -/
theorem witness_EngineSpinsForwardBeyondMemory :
    (State.reset.setPc 0xFFFFFFFC).runState = .running ∧
      (State.reset.setPc 0xFFFFFFFC).memLen ≤ (State.reset.setPc 0xFFFFFFFC).pc.toNat ∧
      (State.reset.setPc 0xFFFFFFFC).pc.toNat + 4 * 1 ≤ 2 ^ 32 := by decide
theorem witness_UnknownOpcodeHaltsWithItsValue :
    (State.reset.withFetchWord 32 0x28000000).runState = .running ∧
      10 ≤ ((State.reset.withFetchWord 32 0x28000000).fetch >>> 26).toNat := by decide
/-- A halted state, and a running one at an ADD into register 32. -/
theorem witness_NoStepExactlyAtHaltOrRefusedAdd :
    (State.reset.halt .breakpointHit (decodeFields 0x24000000)).runState = .halted ∧
      (State.reset.withFetchWord 32 0x20220020).runState = .running ∧
      FetchesRefusedAdd (State.reset.withFetchWord 32 0x20220020) :=
  ⟨rfl, rfl, 1, 2, 0, 32, rfl, by decide⟩
theorem witness_RunningEngineAlwaysSteps : State.reset.runState = .running := rfl

/-- A JMP and a BNE that fail their tests, a BRK and an unknown opcode, each next to run. -/
def jmpFails : State := (withRegs [(1, 0x800)]).withFetchWord 32 0x04200002
def bneFails : State := (withRegs [(1, 1), (2, 2)]).withFetchWord 32 0x18220010
def brkNext : State := State.reset.withFetchWord 32 0x24000000
def unknownNext : State := State.reset.withFetchWord 32 0xFFFFFFFF

theorem inv_jmpFails : jmpFails.Inv := ⟨by decide, by decide, by decide, by decide, ⟨rfl, rfl⟩⟩
theorem inv_bneFails : bneFails.Inv := ⟨by decide, by decide, by decide, by decide, ⟨rfl, rfl⟩⟩
theorem inv_brkNext : brkNext.Inv := ⟨by decide, by decide, by decide, by decide, ⟨rfl, rfl⟩⟩
theorem inv_unknownNext : unknownNext.Inv := ⟨by decide, by decide, by decide, by decide, ⟨rfl, rfl⟩⟩

theorem witness_AddressMisalignmentRaisedExactly_jmp :
    jmpFails.Inv ∧ ∃ t, step jmpFails = .next t ∧ t.haltCause = some .addressMisalignment :=
  ⟨inv_jmpFails, _, rfl, rfl⟩
theorem witness_AddressMisalignmentRaisedExactly_bne :
    bneFails.Inv ∧ ∃ t, step bneFails = .next t ∧ t.haltCause = some .addressMisalignment :=
  ⟨inv_bneFails, _, rfl, rfl⟩
theorem witness_BreakpointRaisedExactlyByBrk :
    brkNext.Inv ∧ ∃ t, step brkNext = .next t ∧ t.haltCause = some .breakpointHit := ⟨inv_brkNext, _, rfl, rfl⟩
theorem witness_EngineHaltsExactlyOnTableCauses :
    unknownNext.Inv ∧ ∃ t, step unknownNext = .next t ∧ t.haltCause = some .unknownOpcode :=
  ⟨inv_unknownNext, _, rfl, rfl⟩
theorem witness_EveryHaltIsPrecise : ∃ t, step brkNext = .next t ∧ t.runState = .halted := ⟨_, rfl, rfl⟩
theorem witness_StepKeepsInvariant : jmpFails.Inv ∧ ∃ t, step jmpFails = .next t := ⟨inv_jmpFails, _, rfl⟩
theorem witness_InvariantHoldsAfterLaunch :
    ∃ s, State.launch 0x804 resetRegs [0, 0, 0, 0x24] = .next s := ⟨_, rfl⟩
theorem witness_HaltedStateIsFinal :
    (brkNext.halt .breakpointHit (decodeFields brkNext.fetch)).runState = .halted ∧
      Reaches (brkNext.halt .breakpointHit (decodeFields brkNext.fetch))
        (brkNext.halt .breakpointHit (decodeFields brkNext.fetch)) := ⟨rfl, .refl _⟩
theorem witness_MemorySizeIsFixed : ∃ t, Reaches brkNext t ∧ t.runState = .halted :=
  ⟨_, .step (.refl _) trivial rfl, rfl⟩
theorem witness_EveryEndHasExitStatusMinusOne :
    brkNext.Inv ∧ ∃ t, Reaches brkNext t ∧ t.runState = .halted ∧ t.exitStatus ≠ none :=
  ⟨inv_brkNext, _, .step (.refl _) trivial rfl, rfl, by decide⟩
theorem witness_FinalStateExactlyAtHalt :
    State.reset.runState = .running ∧ (State.reset.halt .breakpointHit (decodeFields 0)).runState = .halted :=
  ⟨rfl, rfl⟩
theorem witness_OnlyListedRegisterIsWritten :
    (∃ t, exec (.mv 1 2 0) State.reset = .next t) ∧ regWrite (.mv 1 2 0) ≠ some 1 := ⟨⟨_, rfl⟩, by decide⟩
/-- The written register may be the unlisted one. -/
theorem witness_UnlistedRegisterHasNoInfluence :
    (2 : RegIdx) ∉ regReads (.mv 1 2 0) ∧ regWrite (.mv 1 2 0) = some 2 ∧
      AgreeExcept 2 State.reset (State.reset.setReg 2 7) :=
  ⟨by decide, by decide, by unfold RegsKeptExcept; decide, rfl, ⟨rfl, rfl, rfl⟩, rfl, rfl⟩
theorem witness_OnlyStoreChangesMemory :
    (∀ v a x, Instr.lw 1 2 0 ≠ .sw v a x) ∧ ∃ t, exec (.lw 1 2 0) State.reset = .next t :=
  ⟨by intros; simp, _, rfl⟩
theorem witness_PlainInstructionsAdvanceByFour :
    (∀ a x off, Instr.nop 0 ≠ .jmp a x off) ∧ (∀ a b off, Instr.nop 0 ≠ .bne a b off) ∧
      (∀ x, Instr.nop 0 ≠ .brk x) ∧ ∃ t, exec (.nop 0) State.reset = .next t :=
  ⟨by intros; simp, by intros; simp, by intros; simp, _, rfl⟩
theorem witness_JmpLeavesPcAligned :
    State.reset.runState = .running ∧ ∃ t, exec (.jmp 1 0 4) State.reset = .next t ∧ t.runState = .running :=
  ⟨rfl, _, rfl, rfl⟩
theorem witness_LaunchLoadsImageVerbatim :
    0x800 + [0x00#8, 0x00#8, 0x00#8, 0x24#8].length ≤ 0x804 ∧ 0x804 ≤ 2 ^ 32 := by decide
/-- Each side of the launch premise broken by one. -/
theorem witness_LaunchOutsidePremiseIsRefused :
    0x803 < 0x800 + [0x00#8, 0x00#8, 0x00#8, 0x24#8].length ∧ 2 ^ 32 < 2 ^ 32 + 1 := by decide
theorem witness_PlacedWordIsFetched :
    State.reset.mem.wf ∧ State.reset.pc.toNat + 4 ≤ State.reset.memLen := by decide

end Sys2Proof.Tests
end

section
/-! ### The sign extension of the 16-bit offset (00_scope.md R12, 30_encoding.md R56) -/

namespace Sys2Proof.Machine

/-- Bit 15 clear: sign extension is zero extension. -/
theorem sext32_of_lt {v : Half} (hv : v.toNat < 2 ^ 15) : sext32 v = v.zeroExtend 32 := by
  have hmsb : v.msb = false := BitVec.msb_eq_false_iff_two_mul_lt.mpr (by omega)
  exact BitVec.signExtend_eq_setWidth_of_msb_false hmsb

/-- Bit 15 set: sign extension puts sixteen ones above the offset. As a number this is a sum without a carry out. -/
theorem sext32_of_ge {v : Half} (hv : 2 ^ 15 ≤ v.toNat) : sext32 v = v.zeroExtend 32 + 0xFFFF0000 := by
  have hmsb : v.msb = true := BitVec.msb_eq_true_iff_two_mul_ge.mpr (by omega)
  have hlt : v.toNat < 2 ^ 16 := v.isLt
  have hsum : (sext32 v).toNat = v.toNat + 0xFFFF0000 := by
    rw [sext32, BitVec.toNat_signExtend, if_pos hmsb, BitVec.toNat_setWidth]
    omega
  bv_omega

/-- Sign extension keeps the two's-complement value. -/
@[simp] theorem toInt_sext32 (v : Half) : (sext32 v).toInt = v.toInt :=
  BitVec.toInt_signExtend_of_le (by decide)

/-- Two's complement on 16 bits in the spec's form, `v - 2^16 * v[15]`: bit 15 is the quotient by `2^15`. -/
theorem toInt_half (v : Half) : v.toInt = (v.toNat : Int) - 2 ^ 16 * (v.toNat / 2 ^ 15 : Nat) := by
  rw [BitVec.toInt_eq_toNat_cond]
  split <;> omega

/-- Settles O8: the word by the case of bit 15, the integer by the two's-complement value that extension keeps. -/
theorem offsetSignExtension : Obligations.OffsetSignExtension := by
  intro v
  refine ⟨?_, (toInt_sext32 v).trans (toInt_half v)⟩
  split
  next hlt => exact sext32_of_lt hlt
  next hge => exact sext32_of_ge (Nat.le_of_not_lt hge)

end Sys2Proof.Machine
end

section
/-! ### What one instruction does to the state: one effect per cycle

Every meaning of `exec` is one of six effects, chosen from the registers and bytes the instruction reads. The frame
rules are proved once per effect, and the rules over all instructions follow from which effect an instruction can
have. -/

namespace Sys2Proof.Machine

/-- What an executor does before the engine advances or halts. -/
inductive Effect where
  | keep
  | writeReg (d : RegIdx) (v : Word)
  | store (a v : Word)
  | jump (target : Word)
  | raise (c : HaltCause)
  | refuse (q : Refusal)

/-- The effect an instruction has in a state. -/
def effectOf : Instr → State → Effect
  | .nop _, _ => .keep
  | .jmp a _ off, s =>
    if misaligned (jmpTarget (s.reg a) off) then .raise .addressMisalignment else .jump (jmpTarget (s.reg a) off)
  | .lw a d _, s => .writeReg d (s.read32 (s.reg a))
  | .sw v a _, s => .store (s.reg a) (s.reg v)
  | .lhi a _ m, s => .writeReg a (insertLow16 (s.reg a) m)
  | .luhi a _ m, s => .writeReg a (insertHigh16 (s.reg a) m)
  | .bne a b off, s =>
    if notEqual (s.reg a) (s.reg b) then
      if misaligned (s.reg b) then .raise .addressMisalignment else .jump (bneTarget s.pc off)
    else .keep
  | .mv a d _, s => .writeReg d (s.reg a)
  | .add a b _ ra3, s =>
    match destReg ra3 with
    | some d => .writeReg d (add32 (s.reg a) (s.reg b))
    | none => .refuse .undefinedRegisterIndex
  | .brk _, _ => .raise .breakpointHit

/-- The Execution Result of an effect on a state. -/
def Effect.result (s : State) : Effect → ExecutionResult
  | .keep => .success s
  | .writeReg d v => .success (s.setReg d v)
  | .store a v => .success (s.write32 a v)
  | .jump target => .success (s.setPc target)
  | .raise c => .raised c
  | .refuse q => .refuse q

/-- `exec` settles the effect of its instruction. -/
theorem exec_eq_settle (i : Instr) (s : State) : exec i s = settle i.fields s ((effectOf i s).result s) := by
  cases i with
  | jmp a x off =>
    simp only [exec, execJmp, effectOf]
    split <;> rfl
  | bne a b off =>
    simp only [exec, execBne, effectOf]
    split
    · split <;> rfl
    · rfl
  | add a b x ra3 =>
    simp only [exec, execAdd, effectOf]
    cases destReg ra3 <;> rfl
  | _ => rfl

/-- How a cycle with the effect ends: the effect made and the pc advanced, or the halt. A refusal has no next state. -/
inductive Effect.Ends (f : Fields) (s : State) : Effect → State → Prop where
  | keep : Ends f s .keep s.advancePc
  | writeReg (d : RegIdx) (v : Word) : Ends f s (.writeReg d v) (s.setReg d v).advancePc
  | store (a v : Word) : Ends f s (.store a v) (s.write32 a v).advancePc
  | jump (target : Word) : Ends f s (.jump target) (s.setPc target).advancePc
  | raise (c : HaltCause) : Ends f s (.raise c) (s.halt c f)

/-- An instruction that answers a next state ends as its effect does. -/
theorem exec_ends {i : Instr} {s t : State} (h : exec i s = .next t) : (effectOf i s).Ends i.fields s t := by
  rw [exec_eq_settle] at h
  rcases settle_next h with ⟨u, hu, rfl⟩ | ⟨c, hc, rfl⟩
  · generalize effectOf i s = e at hu
    cases e with
    | raise | refuse => cases hu
    | _ => cases hu; constructor
  · generalize effectOf i s = e at hc
    cases e with
    | raise => cases hc; constructor
    | _ => cases hc

/-! ### What each effect leaves unchanged -/

namespace Effect

variable {f : Fields} {s t : State} {e : Effect}

theorem Ends.memLen (h : e.Ends f s t) : t.memLen = s.memLen := by
  cases h <;> simp

theorem Ends.reg_of_not_written (h : e.Ends f s t) {r : RegIdx} (hne : ∀ v, e ≠ .writeReg r v) :
    t.reg r = s.reg r := by
  cases h with
  | writeReg d v =>
    have hd : r ≠ d := fun e => hne v (e ▸ rfl)
    simp [State.reg_setReg, hd]
  | _ => simp

theorem Ends.mem_of_not_stored (h : e.Ends f s t) (hne : ∀ a v, e ≠ .store a v) : t.mem = s.mem := by
  cases h with
  | store a v => exact absurd rfl (hne a v)
  | _ => rfl

theorem Ends.haltStateKept (h : e.Ends f s t) (hne : ∀ c, e ≠ .raise c) : HaltStateKept s t := by
  cases h with
  | raise c => exact absurd rfl (hne c)
  | _ => simp [HaltStateKept]

theorem Ends.pc_of_not_jumped (h : e.Ends f s t) (hj : ∀ a, e ≠ .jump a) (hr : ∀ c, e ≠ .raise c) :
    t.pc = s.pc + 4 := by
  cases h with
  | jump a => exact absurd rfl (hj a)
  | raise c => exact absurd rfl (hr c)
  | _ => simp

/-- Every effect keeps memory in canonical form. -/
theorem Ends.memCanonical (h : e.Ends f s t) (hm : s.mem.wf) : t.mem.wf := by
  cases h with
  | store a v => exact State.wf_write32 hm a v
  | _ => exact hm

/-- Every effect keeps memory inside its size: a store in bounds brings in cells below it, one out of bounds none. -/
theorem Ends.memInside (h : e.Ends f s t) (hm : ∀ c ∈ s.mem, c.1 < s.memLen) : ∀ c ∈ t.mem, c.1 < t.memLen := by
  rw [h.memLen]
  cases h with
  | store a v =>
    intro c hc
    rcases State.mem_write32 hc with ⟨_, below, inside⟩ | old
    · omega
    · exact hm c old
  | _ => exact hm

end Effect

/-! ### Which effects each instruction can have -/

/-- JMP raises or jumps, by the test on its target (42_control.md R80). -/
theorem effectOf_jmp_cases (a : RegIdx) (x : BitVec 5) (off : Half) (s : State) :
    (misaligned (jmpTarget (s.reg a) off) = true ∧ effectOf (.jmp a x off) s = .raise .addressMisalignment) ∨
      (misaligned (jmpTarget (s.reg a) off) = false ∧
        effectOf (.jmp a x off) s = .jump (jmpTarget (s.reg a) off)) := by
  cases bad : misaligned (jmpTarget (s.reg a) off) <;> simp [effectOf, bad]

/-- BNE falls through on equal operands, and raises or jumps on unequal ones by the test on the second
(42_control.md R81). -/
theorem effectOf_bne_cases (a b : RegIdx) (off : Half) (s : State) :
    effectOf (.bne a b off) s = .keep ∨
      (s.reg a ≠ s.reg b ∧ misaligned (s.reg b) = true ∧
        effectOf (.bne a b off) s = .raise .addressMisalignment) ∨
      effectOf (.bne a b off) s = .jump (bneTarget s.pc off) := by
  by_cases differ : s.reg a = s.reg b
  · simp [effectOf, notEqual, differ]
  · cases bad : misaligned (s.reg b) <;> simp [effectOf, notEqual, differ, bad]

/-- ADD writes the register its destination field names, and is refused when it names none (45_register.md R93). -/
theorem effectOf_add_cases (a b : RegIdx) (x ra3 : BitVec 8) (s : State) :
    (∃ d, destReg ra3 = some d ∧ effectOf (.add a b x ra3) s = .writeReg d (add32 (s.reg a) (s.reg b))) ∨
      (destReg ra3 = none ∧ effectOf (.add a b x ra3) s = .refuse .undefinedRegisterIndex) := by
  cases named : destReg ra3 <;> simp [effectOf, named]

/-- The table of R23 lists exactly the register that an instruction's effect writes (10_state.md R23). -/
theorem regWrite_eq_some_iff {i : Instr} {s : State} {d : RegIdx} :
    regWrite i = some d ↔ ∃ v, effectOf i s = .writeReg d v := by
  cases i with
  | jmp a x off => rcases effectOf_jmp_cases a x off s with ⟨_, he⟩ | ⟨_, he⟩ <;> simp [regWrite, he]
  | bne a b off => rcases effectOf_bne_cases a b off s with he | ⟨_, _, he⟩ | he <;> simp [regWrite, he]
  | add a b x ra3 =>
    rcases effectOf_add_cases a b x ra3 s with ⟨_, named, he⟩ | ⟨named, he⟩ <;> simp [regWrite, named, he]
  | _ => simp [regWrite, effectOf]

/-- Only SW stores (20_memory.md R47). -/
theorem effectOf_ne_store {i : Instr} (hi : ∀ rv ra x, i ≠ .sw rv ra x) (s : State) (a v : Word) :
    effectOf i s ≠ .store a v := by
  cases i with
  | sw rv ra x => exact absurd rfl (hi rv ra x)
  | jmp a x off => rcases effectOf_jmp_cases a x off s with ⟨_, he⟩ | ⟨_, he⟩ <;> simp [he]
  | bne a b off => rcases effectOf_bne_cases a b off s with he | ⟨_, _, he⟩ | he <;> simp [he]
  | add a b x ra3 => rcases effectOf_add_cases a b x ra3 s with ⟨_, _, he⟩ | ⟨_, he⟩ <;> simp [he]
  | _ => simp [effectOf]

/-- Only JMP and BNE jump, and only they and BRK raise (42_control.md R85, 60_exceptions.md R103). -/
theorem effectOf_plain {i : Instr} (notJmp : ∀ a x off, i ≠ .jmp a x off) (notBne : ∀ a b off, i ≠ .bne a b off)
    (notBrk : ∀ x, i ≠ .brk x) (s : State) :
    (∀ target, effectOf i s ≠ .jump target) ∧ ∀ c, effectOf i s ≠ .raise c := by
  cases i with
  | jmp a x off => exact absurd rfl (notJmp a x off)
  | bne a b off => exact absurd rfl (notBne a b off)
  | brk x => exact absurd rfl (notBrk x)
  | add a b x ra3 => rcases effectOf_add_cases a b x ra3 s with ⟨_, _, he⟩ | ⟨_, he⟩ <;> simp [he]
  | _ => simp [effectOf]

/-- What an instruction raises is what the cause table gives its latched fields (60_exceptions.md R104). -/
theorem causeHolds_of_effectOf_raise {i : Instr} {s : State} {c : HaltCause} (h : effectOf i s = .raise c) :
    CauseHolds c i.fields s := by
  cases i with
  | jmp a x off =>
    rcases effectOf_jmp_cases a x off s with ⟨bad, he⟩ | ⟨_, he⟩ <;> cases he.symm.trans h
    rw [Laws.LatchedFields.jmp a x off]
    exact .inl ⟨rfl, bad⟩
  | bne a b off =>
    rcases effectOf_bne_cases a b off s with he | ⟨differ, bad, he⟩ | he <;> cases he.symm.trans h
    rw [Laws.LatchedFields.bne a b off]
    exact .inr ⟨rfl, differ, bad⟩
  | add a b x ra3 => rcases effectOf_add_cases a b x ra3 s with ⟨_, _, he⟩ | ⟨_, he⟩ <;> cases he.symm.trans h
  | brk x =>
    cases h
    rw [Laws.LatchedFields.brk x]
    rfl
  | _ => cases h

end Sys2Proof.Machine
end

section
/-! ### The decoder's answers (30_encoding.md R53, R60, R62) -/

namespace Sys2Proof

/-- The four fields a word is made of make the word. -/
theorem wordOfFields_extractLsb' (w : Word) :
    wordOfFields (w.extractLsb' 26 6) (w.extractLsb' 21 5) (w.extractLsb' 16 5) (w.extractLsb' 0 16) = w := by
  ext k hk
  simp [wordOfFields]
  grind

/-- The opcode and the other 26 bits of a word make the word. -/
theorem wordOfOpcode_extractLsb' (w : Word) : wordOfOpcode (w.extractLsb' 26 6) (w.extractLsb' 0 26) = w := by
  ext k hk
  simp [wordOfOpcode]
  grind

/-- The two low bytes of a word make its low half. -/
theorem halfOfBytes_extractLsb' (w : Word) :
    halfOfBytes (w.extractLsb' 8 8) (w.extractLsb' 0 8) = w.extractLsb' 0 16 := by
  ext k hk
  simp [halfOfBytes]
  grind

/-- A word that decodes is the encoding of its instruction: the opcode is that of the row, and every other bit of the
word stands in the term. -/
theorem encode_of_decode {w : Word} {i : Instr} (h : decode w = .ok i) : encode i = w := by
  have opcode {n : Nat} (hn : (decodeFields w).op.toNat = n) : BitVec.ofNat 6 n = w.extractLsb' 26 6 := by
    rw [← hn, BitVec.ofNat_toNat, BitVec.setWidth_eq]; rfl
  simp only [decode] at h
  split at h <;> cases h
  case h_1 hn | h_10 hn => exact (congrArg (wordOfOpcode · _) (opcode hn)).trans (wordOfOpcode_extractLsb' w)
  case h_9 hn =>
    refine (congrArg (wordOfFields · _ _ _) (opcode hn)).trans ?_
    exact (congrArg (wordOfFields _ _ _) (halfOfBytes_extractLsb' w)).trans (wordOfFields_extractLsb' w)
  all_goals
    rename_i hn
    exact (congrArg (wordOfFields · _ _ _) (opcode hn)).trans (wordOfFields_extractLsb' w)

/-- The fields an instruction latches are those of the word it was decoded from. -/
theorem fields_of_decode {w : Word} {i : Instr} (h : decode w = .ok i) : i.fields = decodeFields w :=
  congrArg decodeFields (encode_of_decode h)

/-- A word that does not decode has an opcode of 10 or more (R62). -/
theorem op_ge_of_decode_error {w : Word} {e : Reject} (h : decode w = .error e) : 10 ≤ (decodeFields w).op.toNat := by
  simp only [decode] at h
  split at h
  case h_11 => grind
  all_goals cases h

end Sys2Proof
end

section
/-! ### Canonical memory as its bytes (10_state.md R31, R33) -/

namespace Sys2Proof.Machine

/-- Below all its addresses a memory reads as unlisted. -/
theorem Memory.readByte_of_forall_lt {m : Memory} {a : Nat} (h : ∀ c ∈ m, a < c.1) :
    m.readByte a = Config.unlistedByte := by
  induction m with
  | nil => rfl
  | cons c m ih =>
    obtain ⟨hc, hm⟩ := List.forall_mem_cons.1 h
    rw [readByte, if_neg (Nat.ne_of_gt hc), ih hm]

/-- The cells of a canonical memory are its bytes that read as something else than an unlisted byte. -/
theorem Memory.mem_iff_readByte {m : Memory} (h : m.wf) (c : Host.Cell) :
    c ∈ m ↔ m.readByte c.1 = c.2 ∧ c.2 ≠ Config.unlistedByte := by
  induction m with
  | nil => simp [readByte, eq_comm]
  | cons d m ih =>
    obtain ⟨sorted, listed⟩ := h
    obtain ⟨above, sorted⟩ := List.pairwise_cons.1 sorted
    obtain ⟨hd, hm⟩ := List.forall_mem_cons.1 listed
    rw [List.mem_cons, ih ⟨sorted, hm⟩, readByte]
    by_cases same : d.1 = c.1
    · have miss : Memory.readByte m c.1 = Config.unlistedByte := readByte_of_forall_lt (same ▸ above)
      rw [if_pos same, miss, Prod.ext_iff]
      grind
    · have : c ≠ d := fun e => same (e ▸ rfl)
      simp [this, same]

end Sys2Proof.Machine
end

section
/-! ### How long a register write lasts (10_state.md R21, R22) -/

namespace Sys2Proof.Machine

/-- An instruction whose effect is a register write completes with that write. -/
theorem exec_of_effectOf_writeReg {i : Instr} {s : State} {d : RegIdx} {v : Word}
    (h : effectOf i s = .writeReg d v) : exec i s = .next (s.setReg d v).advancePc := by
  rw [exec_eq_settle, h]; rfl

/-- A step that fetches no instruction writing a register keeps it. -/
theorem step_reg_of_not_written {r : RegIdx} {s t : State} (hw : ¬ WritesRegister r s) (h : step s = .next t) :
    t.reg r = s.reg r := by
  obtain ⟨-, ⟨i, decoded, he⟩ | ⟨e, -, rfl⟩⟩ := step_next h
  · exact (exec_ends he).reg_of_not_written fun v written =>
      hw ⟨i, decoded, regWrite_eq_some_iff.2 ⟨v, written⟩⟩
  · rfl

/-- What an instruction writes to a register stays there until the register is written again, and MV reads it. -/
theorem writeLasts_of_effectOf {i : Instr} {s : State} {r : RegIdx} {v : Word} (h : effectOf i s = .writeReg r v) :
    WriteLasts i s r v := by
  refine ⟨_, exec_of_effectOf_writeReg h, fun u run => ?_⟩
  have holds : u.reg r = v :=
    run.keeps (Q := fun w => w.reg r = v) (fun hw hv hs => (step_reg_of_not_written hw hs).trans hv)
      (by simp [State.reg_setReg])
  refine ⟨holds, fun d y => ⟨_, exec_of_effectOf_writeReg rfl, ?_, ?_⟩⟩ <;> simp [State.reg_setReg, holds]

/-- A destination field with a register's number names that register. -/
theorem destReg_of_toNat_eq {d : BitVec 8} {r : RegIdx} (h : d.toNat = r.toNat) : destReg d = some r := by
  have lt : d.toNat < 32 := h ▸ r.isLt
  rw [destReg_of_lt lt, Option.some_inj]
  apply BitVec.eq_of_toNat_eq
  simp only [BitVec.extractLsb'_toNat]
  omega

end Sys2Proof.Machine
end

section
/-! ### The invariant and the rules over all steps (10_state.md) -/

namespace Sys2Proof.Machine

/-- A running machine that keeps its halt state keeps a true report. -/
theorem HaltReportTrue.of_kept {s t : State} (h : HaltReportTrue s) (running : s.runState = .running)
    (kept : HaltStateKept s t) : HaltReportTrue t := by
  obtain ⟨run, cause, instr⟩ := kept
  simp only [HaltReportTrue, running] at h
  obtain ⟨noCause, noInstr⟩ := h
  simp only [HaltReportTrue, run, running]
  exact ⟨cause.trans noCause, instr.trans noInstr⟩

/-- Halting on a cause that the fetched instruction raises makes a true report: the halt keeps what the fetch and the
cause are read from. -/
theorem haltReportTrue_halt {s : State} {c : HaltCause} (h : CauseHolds c (decodeFields s.fetch) s) :
    HaltReportTrue (s.halt c (decodeFields s.fetch)) :=
  ⟨rfl, c, rfl, by cases c <;> exact h⟩

/-- Halting on a cause that the fetched instruction raises keeps the invariant. -/
theorem State.Inv.halt {s : State} (h : s.Inv) {c : HaltCause} (hc : CauseHolds c (decodeFields s.fetch) s) :
    (s.halt c (decodeFields s.fetch)).Inv where
  memCanonical := h.memCanonical
  memInside := h.memInside
  holdsEntry := h.holdsEntry
  addressable := h.addressable
  reportTrue := haltReportTrue_halt hc

/-- An effect of a running machine other than a halt keeps the invariant. -/
theorem State.Inv.of_ends {f : Fields} {s t : State} {e : Effect} (h : s.Inv) (running : s.runState = .running)
    (ends : e.Ends f s t) (hne : ∀ c, e ≠ .raise c) : t.Inv where
  memCanonical := ends.memCanonical h.memCanonical
  memInside := ends.memInside h.memInside
  holdsEntry := ends.memLen ▸ h.holdsEntry
  addressable := ends.memLen ▸ h.addressable
  reportTrue := h.reportTrue.of_kept running (ends.haltStateKept hne)

/-- Settles O43: a step halts truthfully, for an unknown opcode or for what the decoded instruction raises, or keeps
the halt state and makes an effect that keeps memory. -/
theorem stepKeepsInvariant : Obligations.StepKeepsInvariant := by
  intro s t inv h
  obtain ⟨running, ⟨i, decoded, he⟩ | ⟨e, unknown, rfl⟩⟩ := step_next h
  · have ends := exec_ends he
    by_cases raised : ∃ c, effectOf i s = .raise c
    · obtain ⟨c, raised⟩ := raised
      have cause := causeHolds_of_effectOf_raise raised
      rw [raised, fields_of_decode decoded] at ends
      rw [fields_of_decode decoded] at cause
      cases ends
      exact inv.halt cause
    · exact inv.of_ends running ends (not_exists.1 raised)
  · exact inv.halt (op_ge_of_decode_error unknown)

/-- Settles O12: two canonical memories that read alike hold the same cells, in the same rising order. -/
theorem canonicalMemoryIsItsBytes : Obligations.CanonicalMemoryIsItsBytes := by
  intro m n hm hn alike
  have cells : ∀ c, c ∈ m ↔ c ∈ n := fun c => by
    rw [Memory.mem_iff_readByte hm, Memory.mem_iff_readByte hn, alike]
  have nodup {l : Memory} (hl : l.wf) : l.Nodup :=
    hl.1.imp fun {c d} (lt : c.1 < d.1) (e : c = d) => Nat.ne_of_lt lt (congrArg Prod.fst e)
  have perm : m.Perm n := (List.perm_ext_iff_of_nodup (nodup hm) (nodup hn)).2 cells
  exact perm.eq_of_pairwise (fun _ _ _ _ lt gt => absurd gt (Nat.lt_asymm lt)) hm.1 hn.1

/-- Settles O30: each of the five instructions has a register write as its effect. -/
theorem everyRegisterKeepsWhatIsWritten : Obligations.EveryRegisterKeepsWhatIsWritten := by
  intro s r
  refine ⟨fun _ _ => writeLasts_of_effectOf rfl, fun _ _ => writeLasts_of_effectOf rfl,
    fun _ _ => writeLasts_of_effectOf rfl, fun _ _ => writeLasts_of_effectOf rfl, fun a b x d named => ?_⟩
  exact writeLasts_of_effectOf (by rw [effectOf, destReg_of_toNat_eq named]; rfl)

/-- Settles O45: the image lies inside the memory, and a launched machine runs with no report. -/
theorem invariantHoldsAfterLaunch : Obligations.InvariantHoldsAfterLaunch := by
  intro memLen regInit image s h
  unfold State.launch at h
  split at h
  next premise =>
    obtain ⟨fits, addressable⟩ := premise
    cases h
    exact {
      memCanonical := Memory.wf_writeBytes ⟨.nil, by simp⟩ _ _
      memInside := fun c hc => by
        rcases Memory.mem_writeBytes hc with ⟨_, below⟩ | old
        · exact Nat.lt_of_lt_of_le below fits
        · cases old
      holdsEntry := Nat.le_of_add_right_le fits
      addressable := addressable
      reportTrue := ⟨rfl, rfl⟩ }
  next => cases h

/-- Settles O47: no effect changes the memory's size, nor does a halt. -/
theorem memorySizeIsFixed : Obligations.MemorySizeIsFixed := by
  intro s t run
  refine run.keeps (Q := fun u => u.memLen = s.memLen) (fun {u v} _ kept h => ?_) rfl
  obtain ⟨-, ⟨i, -, he⟩ | ⟨e, -, rfl⟩⟩ := step_next h
  · exact (exec_ends he).memLen.trans kept
  · exact kept

/-- Settles O50: an effect keeps every register it does not write, and it writes the register of the table only. -/
theorem onlyListedRegisterIsWritten : Obligations.OnlyListedRegisterIsWritten := by
  intro i s t h r unlisted
  exact (exec_ends h).reg_of_not_written fun v written => unlisted (regWrite_eq_some_iff.2 ⟨v, written⟩)

/-- Settles O52: no effect but a store changes memory, and only SW stores. -/
theorem onlyStoreChangesMemory : Obligations.OnlyStoreChangesMemory := by
  intro i s t notSw h
  have ends := exec_ends h
  have kept := ends.mem_of_not_stored (effectOf_ne_store notSw s)
  exact ⟨ends.memLen, fun b => by rw [kept]⟩

/-- Settles O53: a plain instruction neither jumps nor raises. -/
theorem plainInstructionsAdvanceByFour : Obligations.PlainInstructionsAdvanceByFour := by
  intro i s t notJmp notBne notBrk h
  obtain ⟨noJump, noRaise⟩ := effectOf_plain notJmp notBne notBrk s
  have ends := exec_ends h
  exact ⟨ends.pc_of_not_jumped noJump noRaise, ends.haltStateKept noRaise⟩

/-- Settles O54: a JMP that does not halt has jumped, to an aligned target. -/
theorem jmpLeavesPcAligned : Obligations.JmpLeavesPcAligned := by
  intro a x off s t _ h running
  have ends := exec_ends h
  rcases effectOf_jmp_cases a x off s with ⟨_, raised⟩ | ⟨aligned, jumped⟩
  · rw [raised] at ends
    cases ends
    cases running
  · rw [jumped] at ends
    cases ends
    have := mt misaligned_iff.2 (Bool.eq_false_iff.1 aligned)
    rw [State.advancePc_pc, State.setPc_pc]
    bv_omega

end Sys2Proof.Machine
end

section
/-! ### A register that is not read (10_state.md R23) -/

namespace Sys2Proof.Machine

namespace AgreeExcept

variable {r : RegIdx} {s t : State}

theorem reg_eq (h : AgreeExcept r s t) {q : RegIdx} (hq : q ≠ r) : t.reg q = s.reg q := by
  obtain ⟨regs, -⟩ := h
  exact regs q (by simpa using hq)

theorem pc_eq (h : AgreeExcept r s t) : t.pc = s.pc := by
  obtain ⟨-, pc, -⟩ := h
  exact pc

theorem inBounds_eq (h : AgreeExcept r s t) (a : Word) : t.inBounds a = s.inBounds a := by
  obtain ⟨-, -, -, -, memLen⟩ := h
  simp [State.inBounds, memLen]

theorem read32_eq (h : AgreeExcept r s t) (a : Word) : t.read32 a = s.read32 a := by
  have bounds := h.inBounds_eq a
  obtain ⟨-, -, -, mem, -⟩ := h
  rw [State.read32, State.read32, bounds, mem]

theorem advancePc (h : AgreeExcept r s t) : AgreeExcept r s.advancePc t.advancePc := by
  obtain ⟨regs, pc, rest⟩ := h
  exact ⟨regs, by simp [pc], rest⟩

theorem setPc (h : AgreeExcept r s t) (a : Word) : AgreeExcept r (s.setPc a) (t.setPc a) := by
  obtain ⟨regs, -, rest⟩ := h
  exact ⟨regs, rfl, rest⟩

theorem setReg (h : AgreeExcept r s t) (d : RegIdx) (v : Word) : AgreeExcept r (s.setReg d v) (t.setReg d v) := by
  obtain ⟨regs, rest⟩ := h
  refine ⟨fun q hq => ?_, rest⟩
  rw [State.reg_setReg, State.reg_setReg, regs q hq]

theorem write32 (h : AgreeExcept r s t) (a v : Word) : AgreeExcept r (s.write32 a v) (t.write32 a v) := by
  have bounds := h.inBounds_eq a
  obtain ⟨regs, pc, kept, mem, memLen⟩ := h
  unfold State.write32
  rw [bounds]
  split
  · exact ⟨regs, pc, kept, by simp only [mem], memLen⟩
  · exact ⟨regs, pc, kept, mem, memLen⟩

theorem halt (h : AgreeExcept r s t) (c : HaltCause) (f : Fields) : AgreeExcept r (s.halt c f) (t.halt c f) := by
  obtain ⟨regs, pc, -, rest⟩ := h
  exact ⟨regs, pc, ⟨rfl, rfl, rfl⟩, rest⟩

/-- States that differ in an unread register alone give an instruction the same effect. -/
theorem effectOf_eq (h : AgreeExcept r s t) {i : Instr} (unread : r ∉ regReads i) : effectOf i t = effectOf i s := by
  have read : ∀ q ∈ regReads i, t.reg q = s.reg q := fun q hq => h.reg_eq fun e => unread (e ▸ hq)
  cases i <;> simp only [regReads, List.forall_mem_cons] at read <;> simp [effectOf, read, h.pc_eq, h.read32_eq]

end AgreeExcept

/-- Settles O51: the two states have the same effect, and each effect made on both keeps them alike; a listed register
takes the same value in both. -/
theorem unlistedRegisterHasNoInfluence : Obligations.UnlistedRegisterHasNoInfluence := by
  intro i r s t unread h
  have listed (hw : regWrite i = some r) : ∃ v, effectOf i s = .writeReg r v := regWrite_eq_some_iff.1 hw
  rw [exec_eq_settle, exec_eq_settle, h.effectOf_eq unread]
  generalize effectOf i s = e at listed
  cases e with
  | keep => exact ⟨h.advancePc, fun hw => by simpa using listed hw⟩
  | writeReg d v =>
    refine ⟨(h.setReg d v).advancePc, fun hw => ?_⟩
    obtain ⟨_, e⟩ := listed hw
    cases e
    simp [State.reg_setReg]
  | store a v => exact ⟨(h.write32 a v).advancePc, fun hw => by simpa using listed hw⟩
  | jump target => exact ⟨(h.setPc target).advancePc, fun hw => by simpa using listed hw⟩
  | raise c => exact ⟨h.halt c _, fun hw => by simpa using listed hw⟩
  | refuse q => rfl

end Sys2Proof.Machine
end

section
/-! ### Reset, and an unaligned branch from it (10_state.md R27, R33) -/

namespace Sys2Proof.Machine

/-- Settles O56: every field of the reset state is the launch's, and memory with no cell reads zero. -/
theorem resetIsLaunchWithoutImage : Obligations.ResetIsLaunchWithoutImage :=
  ⟨rfl, rfl, rfl, rfl, fun _ => rfl, rfl⟩

/-- Settles O44: the reset state is the one that the launch with no image answers. -/
theorem invariantHoldsAtReset : Obligations.InvariantHoldsAtReset := by
  obtain ⟨-, -, -, -, -, launched⟩ := resetIsLaunchWithoutImage
  exact invariantHoldsAfterLaunch _ _ _ _ launched

/-- A machine launched on the word 0x18220002, `BNE r1, r2, 2`, with `r1 = 1` and the other registers zero. -/
def launchedOnBne : State :=
  { State.reset with
    regs := resetRegs.set 1 1
    mem := Memory.writeBytes [] Config.entry.toNat [0x02, 0x00, 0x22, 0x18] }

theorem inv_launchedOnBne : launchedOnBne.Inv :=
  invariantHoldsAfterLaunch resetMemLen (resetRegs.set 1 1) [0x02, 0x00, 0x22, 0x18] _ rfl

/-- Settles O55: the BNE at 0x800 branches by 2 and then advances, to 0x806. -/
theorem bneCanLeavePcUnaligned : Obligations.BneCanLeavePcUnaligned :=
  ⟨launchedOnBne, launchedOnBne.setPc 0x806, 1, 2, 2, inv_launchedOnBne, rfl, by decide, by decide, rfl, rfl,
    by decide⟩

end Sys2Proof.Machine
end

section
/-! ### The memory engine (20_memory.md R38 to R46) -/

namespace Sys2Proof.Machine

/-- A write out of bounds changes nothing. -/
theorem State.write32_outOfBounds {s : State} {a : Word} (h : s.memLen < a.toNat + 4) (v : Word) :
    s.write32 a v = s := by
  simp [write32, inBounds, h]

/-- Any byte of memory after a write in bounds. -/
theorem State.readByte_write32 {s : State} {a : Word} (hm : s.mem.wf) (h : a.toNat + 4 ≤ s.memLen) (v : Word)
    (b : Nat) :
    (s.write32 a v).mem.readByte b =
      if a.toNat ≤ b ∧ b < a.toNat + 4 then byteOfWord v (b - a.toNat) else s.mem.readByte b := by
  rw [write32_inBounds h, Memory.readByte_writeWord hm]

/-- The byte of the word that a write in bounds leaves at each of its four places. -/
theorem State.readByte_write32_add {s : State} {a : Word} (hm : s.mem.wf) (h : a.toNat + 4 ≤ s.memLen) (v : Word)
    {k : Nat} (hk : k < 4) : (s.write32 a v).mem.readByte (a.toNat + k) = byteOfWord v k := by
  rw [readByte_write32 hm h, if_pos (by omega), Nat.add_sub_cancel_left]

/-- A write in bounds keeps every byte outside the four at its address. -/
theorem State.bytesKeptOutside_write32 {s : State} {a : Word} (hm : s.mem.wf) (h : a.toNat + 4 ≤ s.memLen)
    (v : Word) : BytesKeptOutside a.toNat 4 s (s.write32 a v) :=
  ⟨write32_memLen .., fun b outside => by rw [readByte_write32 hm h, if_neg (by omega)]⟩

/-- A write keeps every register. -/
theorem State.regsKept_write32 (s : State) (a v : Word) : RegsKeptExcept [] s (s.write32 a v) :=
  fun r _ => write32_reg s r v a

/-- A write keeps the run state and the halt report. -/
theorem State.haltStateKept_write32 (s : State) (a v : Word) : HaltStateKept s (s.write32 a v) :=
  ⟨write32_runState .., write32_haltCause .., write32_haltInstr ..⟩

/-- A canonical memory in which a word is written again is as after the first time: both memories are canonical and
read alike at every byte. -/
theorem Memory.writeWord_writeWord {m : Memory} (h : m.wf) (a : Nat) (v : Word) :
    (m.writeWord a v).writeWord a v = m.writeWord a v := by
  have once := wf_writeWord h a v
  refine canonicalMemoryIsItsBytes _ _ (wf_writeWord once a v) once fun b => ?_
  rw [readByte_writeWord once, readByte_writeWord h]
  split <;> rfl

/-- Settles O10: the four bytes by their places, all else by the frame of a write. -/
theorem wordWriteByBounds : Obligations.WordWriteByBounds := by
  intro s a v hm
  refine ⟨fun outside => State.write32_outOfBounds outside v, fun inside => ?_⟩
  have byte {k : Nat} (hk : k < 4) := State.readByte_write32_add hm inside v hk
  exact ⟨byte (k := 0) (by decide), byte (k := 1) (by decide), byte (k := 2) (by decide), byte (k := 3) (by decide),
    State.bytesKeptOutside_write32 hm inside v, State.regsKept_write32 s a v, State.write32_pc ..,
    State.haltStateKept_write32 s a v⟩

/-- Settles O11: out of bounds neither write does anything; in bounds the second leaves the memory of the first. -/
theorem repeatedWriteChangesNothing : Obligations.RepeatedWriteChangesNothing := by
  intro s a v hm
  rcases Nat.lt_or_ge s.memLen (a.toNat + 4) with outside | inside
  · rw [State.write32_outOfBounds outside, State.write32_outOfBounds outside]
  · rw [State.write32_inBounds (by simpa using inside), State.write32_inBounds inside,
      Memory.writeWord_writeWord hm]

/-- Settles O9: the two cases of the bounds check, the word being its four bytes shifted to their places. -/
theorem wordReadByBounds : Obligations.WordReadByBounds :=
  fun _ _ => ⟨State.read32_outOfBounds, State.read32_inBounds⟩

end Sys2Proof.Machine
end

section
/-! ### The opcode map, row by row (30_encoding.md R53, R54, R58 to R62, R75) -/

namespace Sys2Proof

/-- The opcode value is the word shifted right by 26 (R54). -/
theorem decodeFields_op_toNat (w : Word) : (decodeFields w).op.toNat = w.toNat >>> 26 := by
  have hw : w.toNat < 2 ^ 32 := w.isLt
  rw [decodeFields, BitVec.extractLsb'_toNat, Nat.shiftRight_eq_div_pow]
  omega

/-- The fields of a word whose opcode is known: the other four are read at their places. -/
theorem decodeFields_of_op {w : Word} {op : BitVec 6} (h : w.extractLsb' 26 6 = op) :
    decodeFields w =
      ⟨op, w.extractLsb' 21 5, w.extractLsb' 16 5, w.extractLsb' 0 8, w.extractLsb' 0 16⟩ := by
  rw [← h]; rfl

section rows

variable {w : Word} {a b : RegIdx} {d : BitVec 8} {m : Half}

theorem decode_nop (h : decodeFields w = ⟨0, a, b, d, m⟩) : decode w = .ok (.nop (w.extractLsb' 0 26)) := by
  rw [decode, h]; rfl

theorem decode_jmp (h : decodeFields w = ⟨1, a, b, d, m⟩) : decode w = .ok (.jmp a b m) := by
  rw [decode, h]; rfl

theorem decode_lw (h : decodeFields w = ⟨2, a, b, d, m⟩) : decode w = .ok (.lw a b m) := by
  rw [decode, h]; rfl

theorem decode_sw (h : decodeFields w = ⟨3, a, b, d, m⟩) : decode w = .ok (.sw a b m) := by
  rw [decode, h]; rfl

theorem decode_lhi (h : decodeFields w = ⟨4, a, b, d, m⟩) : decode w = .ok (.lhi a b m) := by
  rw [decode, h]; rfl

theorem decode_luhi (h : decodeFields w = ⟨5, a, b, d, m⟩) : decode w = .ok (.luhi a b m) := by
  rw [decode, h]; rfl

theorem decode_bne (h : decodeFields w = ⟨6, a, b, d, m⟩) : decode w = .ok (.bne a b m) := by
  rw [decode, h]; rfl

theorem decode_mv (h : decodeFields w = ⟨7, a, b, d, m⟩) : decode w = .ok (.mv a b m) := by
  rw [decode, h]; rfl

theorem decode_add (h : decodeFields w = ⟨8, a, b, d, m⟩) : decode w = .ok (.add a b (w.extractLsb' 8 8) d) := by
  rw [decode, h]; rfl

theorem decode_brk (h : decodeFields w = ⟨9, a, b, d, m⟩) : decode w = .ok (.brk (w.extractLsb' 0 26)) := by
  rw [decode, h]; rfl

/-- An opcode of 10 or more has no row, and is reported by its value (R62). -/
theorem decode_of_op_ge (h : 10 ≤ (decodeFields w).op.toNat) :
    decode w = .error (.unknownOpcode (decodeFields w).op) := by
  simp only [decode]
  split
  case h_11 => rfl
  all_goals omega

end rows

/-- The mask of R60 keeps the opcode. -/
theorem op_of_masked {w k : Word} (h : w &&& 0xFC000000 = k) : w.extractLsb' 26 6 = k.extractLsb' 26 6 := by
  have mask : (0xFC000000 : Word).extractLsb' 26 6 = BitVec.allOnes 6 := by decide
  rw [← h, BitVec.extractLsb'_and, mask, BitVec.and_allOnes]

/-- The 26 unused bits of a word of format `N` stand in it as they are. -/
theorem extractLsb'_wordOfOpcode (op : BitVec 6) (u : BitVec 26) : (wordOfOpcode op u).extractLsb' 0 26 = u := by
  ext k hk
  simp [wordOfOpcode]
  grind

/-- Bits 15:8 of a word are the high byte of its low half. -/
theorem extractLsb'_wordOfFields_halfOfBytes (op : BitVec 6) (a b : RegIdx) (u d : BitVec 8) :
    (wordOfFields op a b (halfOfBytes u d)).extractLsb' 8 8 = u := by
  ext k hk
  simp [wordOfFields, halfOfBytes]
  grind

/-- Settles O1: the fields of each instruction's word pick its row of the map, and what the row reads besides the
fields is what the encoder put there. -/
theorem decodeEncodeRoundTrip : Obligations.DecodeEncodeRoundTrip := by
  intro i
  cases i with
  | nop u => rw [decode_nop (Laws.LatchedFields.nop u), encode, extractLsb'_wordOfOpcode]
  | jmp a u off => exact decode_jmp (Laws.LatchedFields.jmp a u off)
  | lw a b u => exact decode_lw (Laws.LatchedFields.lw a b u)
  | sw a b u => exact decode_sw (Laws.LatchedFields.sw a b u)
  | lhi a u imm => exact decode_lhi (Laws.LatchedFields.lhi a u imm)
  | luhi a u imm => exact decode_luhi (Laws.LatchedFields.luhi a u imm)
  | bne a b off => exact decode_bne (Laws.LatchedFields.bne a b off)
  | mv a b u => exact decode_mv (Laws.LatchedFields.mv a b u)
  | add a b u d => rw [decode_add (Laws.LatchedFields.add a b u d), encode, extractLsb'_wordOfFields_halfOfBytes]
  | brk u => rw [decode_brk (Laws.LatchedFields.brk u), encode, extractLsb'_wordOfOpcode]

/-- Settles O2: no bit of the word is dropped by the row it decodes by. -/
theorem encodeDecodeRoundTrip : Obligations.EncodeDecodeRoundTrip := fun _ _ => encode_of_decode

/-- Settles O3: the masked word gives the opcode, and the opcode the row. -/
theorem opcodeMapByMaskAndMatch : Obligations.OpcodeMapByMaskAndMatch := by
  intro w a b m k
  have row {code : Word} (hk : k = code) := decodeFields_of_op (op_of_masked hk)
  refine ⟨fun h => decode_nop (row h), fun h => decode_jmp (row h), fun h => decode_lw (row h),
    fun h => decode_sw (row h), fun h => decode_lhi (row h), fun h => decode_luhi (row h),
    fun h => decode_bne (row h), fun h => decode_mv (row h), fun h => decode_add (row h),
    fun h => decode_brk (row h), fun h => decode_of_op_ge ?_⟩
  have op : (decodeFields w).op = k.extractLsb' 26 6 := op_of_masked rfl
  rw [op, BitVec.extractLsb'_toNat, Nat.shiftRight_eq_div_pow]
  have hk : k.toNat < 2 ^ 32 := k.isLt
  omega

/-- Settles O4: the opcode is what the shift leaves, each other field a remainder of a shift. -/
theorem opcodeIsWordShifted : Obligations.OpcodeIsWordShifted := by
  intro w
  have op := decodeFields_op_toNat w
  exact ⟨op, BitVec.extractLsb'_toNat .., BitVec.extractLsb'_toNat .., BitVec.extractLsb'_toNat ..,
    BitVec.extractLsb'_toNat .., fun h => decode_of_op_ge (op ▸ h)⟩

/-- Settles O5: the low byte of the low half is the low byte of the word. -/
theorem ra3IsLowByteOfOffset : Obligations.Ra3IsLowByteOfOffset := by
  intro w
  exact ⟨rfl, BitVec.extractLsb'_extractLsb'_of_le (by decide)⟩

/-- Settles O6: each word is computed through the map. -/
theorem writtenWordsDecode : Obligations.WrittenWordsDecode :=
  ⟨rfl, rfl, rfl, rfl, rfl, rfl, rfl, rfl⟩

end Sys2Proof
end

section
/-! ### The instruction cycle (30_encoding.md R59, R62, R68 to R74) -/

namespace Sys2Proof.Machine

/-- The cycle of a word of the opcode map is `exec` of its instruction. -/
theorem step_of_decode_ok {s : State} {i : Instr} (running : s.runState = .running)
    (decoded : decode s.fetch = .ok i) : step s = exec i s := by
  simp only [step, running, decoded]

/-- The cycle of a word outside the opcode map is a halt (R62). -/
theorem step_of_decode_error {s : State} {e : Reject} (running : s.runState = .running)
    (unknown : decode s.fetch = .error e) : step s = .next (s.halt .unknownOpcode (decodeFields s.fetch)) := by
  simp only [step, running, unknown]
  rfl

/-- Where no whole word lies at the pc the cycle only advances: the zero word it reads is NOP (R74). -/
theorem step_outOfBounds {s : State} (running : s.runState = .running) (outside : s.memLen < s.pc.toNat + 4) :
    step s = .next s.advancePc := by
  have zero : s.fetch = 0 := State.read32_outOfBounds outside
  have decoded : decode s.fetch = .ok (.nop 0) := by rw [zero]; rfl
  rw [step_of_decode_ok running decoded]
  rfl

/-- The same cycle from a pc written out. -/
theorem step_setPc_outOfBounds {s : State} {a : Word} (running : s.runState = .running)
    (outside : s.memLen < a.toNat + 4) : step (s.setPc a) = .next (s.setPc (a + 4)) :=
  step_outOfBounds (s := s.setPc a) running outside

/-- One step more is a step of the state reached. -/
theorem steps_succ_of_next {n : Nat} {s t : State} (h : steps n s = .next t) : steps (n + 1) s = step t := by
  induction n generalizing s with
  | zero =>
    cases h
    unfold steps
    cases step t <;> rfl
  | succ n ih =>
    rw [steps] at h ⊢
    cases hs : step s with
    | next u => exact ih (by simpa [hs] using h)
    | fault r => simp [hs] at h
    | refused q => simp [hs] at h

/-- An instruction does the same whatever its unused bits are (R59). -/
theorem effectOf_canonical (i : Instr) (s : State) : effectOf i.canonical s = effectOf i s := by
  cases i <;> rfl

/-- The latched fields show in nothing but the latched instruction. -/
theorem settle_sameButHaltInstr (f g : Fields) (s : State) (r : ExecutionResult) :
    SameButHaltInstr (settle f s r) (settle g s r) := by
  cases r <;> rfl

/-- Settles O7: both instructions have the same effect, and differ in the fields they latch only. -/
theorem unusedBitsChangeNothing : Obligations.UnusedBitsChangeNothing := by
  intro i s
  rw [exec_eq_settle, exec_eq_settle, effectOf_canonical]
  exact settle_sameButHaltInstr ..

/-- Settles O34, by induction on the number of steps, the last one taken apart: up to it no pc has wrapped, so each lies
beyond memory. -/
theorem engineSpinsForwardBeyondMemory : Obligations.EngineSpinsForwardBeyondMemory := by
  intro n s running beyond room
  induction n with
  | zero => simp [steps, State.setPc]
  | succ n ih =>
    have pc_n : (s.pc + BitVec.ofNat 32 (4 * n)).toNat = s.pc.toNat + 4 * n := by
      rw [BitVec.toNat_add, BitVec.toNat_ofNat]
      omega
    rw [steps_succ_of_next (ih (by omega)), step_setPc_outOfBounds running (by omega), Nat.mul_succ,
      BitVec.ofNat_add, BitVec.add_assoc]
    rfl

/-- Settles O35: a word of such an opcode decodes to no instruction, and its cycle is a precise halt. -/
theorem unknownOpcodeHaltsWithItsValue : Obligations.UnknownOpcodeHaltsWithItsValue := by
  intro s running h
  have op : (decodeFields s.fetch).op.toNat = (s.fetch >>> 26).toNat := by
    rw [decodeFields_op_toNat, BitVec.toNat_ushiftRight]
  have unknown := decode_of_op_ge (op ▸ h)
  exact ⟨⟨_, unknown, op⟩, _, _, step_of_decode_error running unknown, halt_haltedFrom .., op⟩

/-- Settles O32: in bounds the fetch is the word of the four bytes at the pc. -/
theorem stepRunsDecodedInstruction : Obligations.StepRunsDecodedInstruction := by
  intro s i running inside decoded
  have fetched : s.fetch = s.mem.readWord s.pc.toNat := State.read32_inBounds inside
  exact step_of_decode_ok running (fetched ▸ decoded)

/-- Settles O33: the cycle answers the same state with the pc advanced. -/
theorem outOfBoundsFetchIsNop : Obligations.OutOfBoundsFetchIsNop := fun _ running outside =>
  ⟨_, step_outOfBounds running outside, rfl, fun _ _ => rfl, ⟨rfl, fun _ => rfl⟩, rfl, rfl, rfl⟩

/-! ### Placing a word for the next fetch (log entry 3) -/

/-- A machine made fetchable has a whole word at its pc. -/
theorem State.madeFetchable_inside (s : State) :
    s.madeFetchable.pc.toNat + 4 ≤ s.madeFetchable.memLen := by
  simp only [madeFetchable]
  split
  next inside => simpa [inBounds] using inside
  next => exact Nat.le_max_right ..

/-- A machine made fetchable runs, with the same registers and bytes. -/
theorem State.madeFetchable_kept (s : State) :
    s.madeFetchable.runState = .running ∧ s.madeFetchable.regs = s.regs ∧ s.madeFetchable.mem = s.mem := by
  simp only [madeFetchable]
  split <;> exact ⟨rfl, rfl, rfl⟩

/-- Where the pc is in bounds already it stays, and so does the memory's size. -/
theorem State.madeFetchable_of_inside {s : State} (inside : s.pc.toNat + 4 ≤ s.memLen) :
    s.madeFetchable.pc = s.pc ∧ s.madeFetchable.memLen = s.memLen := by
  simp [madeFetchable, inBounds, inside]

/-- The word placed at the pc is fetched. -/
theorem State.fetch_withWordAtPc {s : State} (canonical : s.mem.wf) (w : Word) : (s.withWordAtPc w).fetch = w := by
  obtain ⟨-, -, mem⟩ := s.madeFetchable_kept
  rw [fetch, withWordAtPc, write32_pc]
  exact read32_write32 (mem ▸ canonical) s.madeFetchable_inside

/-- Settles O59: the word is stored in bounds, at the pc of a machine made fetchable, and a write keeps all but
memory. -/
theorem placedWordIsFetched : Obligations.PlacedWordIsFetched := by
  intro s w canonical t
  obtain ⟨running, regs, -⟩ := s.madeFetchable_kept
  have reduced : BitVec.ofNat 32 (w % 2 ^ 32) = BitVec.ofNat 32 w := BitVec.eq_of_toNat_eq (by simp)
  refine ⟨(State.fetch_withWordAtPc canonical _).trans reduced, (State.write32_runState ..).trans running,
    (State.write32_regs ..).trans regs, fun inside => ?_⟩
  obtain ⟨pc, memLen⟩ := State.madeFetchable_of_inside inside
  exact ⟨(State.write32_pc ..).trans pc, (State.write32_memLen ..).trans memLen⟩

end Sys2Proof.Machine
end

section
/-! ### The system instructions (41_system.md), and the cycles that only advance or only halt -/

namespace Sys2Proof.Machine

/-- An instruction whose effect is to keep the state advances the pc. -/
theorem exec_of_effectOf_keep {i : Instr} {s : State} (h : effectOf i s = .keep) :
    exec i s = .next s.advancePc := by
  rw [exec_eq_settle, h]; rfl

/-- An instruction whose effect is to raise halts with its own fields latched. -/
theorem exec_of_effectOf_raise {i : Instr} {s : State} {c : HaltCause} (h : effectOf i s = .raise c) :
    exec i s = .next (s.halt c i.fields) := by
  rw [exec_eq_settle, h]; rfl

/-- A pc write keeps the registers, the bytes and the halt state. -/
theorem State.setPc_frame (s : State) (v : Word) :
    RegsKeptExcept [] s (s.setPc v) ∧ BytesKept s (s.setPc v) ∧ HaltStateKept s (s.setPc v) :=
  ⟨fun r _ => s.setPc_reg r v, ⟨s.setPc_memLen v, fun _ => rfl⟩,
    s.setPc_runState v, s.setPc_haltCause v, s.setPc_haltInstr v⟩

/-- Settles O15: NOP's effect is to keep the state, so its cycle is a pc write. -/
theorem nopOnlyAdvances : Obligations.NopOnlyAdvances := fun _ s =>
  ⟨_, exec_of_effectOf_keep rfl, s.advancePc_pc, s.setPc_frame _⟩

/-- Settles O16: BRK's effect is to raise, whatever the state, and a halt writes nothing else. -/
theorem brkHaltsAtItself : Obligations.BrkHaltsAtItself := fun _ _ =>
  ⟨_, exec_of_effectOf_raise rfl, halt_haltedFrom ..⟩

end Sys2Proof.Machine
end

section
/-! ### The control transfers (42_control.md) -/

namespace Sys2Proof.Machine

/-- An instruction whose effect is a jump ends 4 beyond its target: the double advance (42_control.md R84). -/
theorem exec_of_effectOf_jump {i : Instr} {s : State} {target : Word} (h : effectOf i s = .jump target) :
    exec i s = .next (s.setPc (target + 4)) := by
  rw [exec_eq_settle, h]; rfl

section jmp

variable {a : RegIdx} {x : BitVec 5} {off : Half} {s : State}

/-- JMP's effect where its target is aligned. -/
theorem effectOf_jmp_of_aligned (aligned : (s.reg a + sext32 off).toNat % 4 = 0) :
    effectOf (.jmp a x off) s = .jump (s.reg a + sext32 off) :=
  if_neg (mt misaligned_iff.1 (not_not_intro aligned))

/-- JMP's effect where its target is not aligned. -/
theorem effectOf_jmp_of_unaligned (unaligned : (s.reg a + sext32 off).toNat % 4 ≠ 0) :
    effectOf (.jmp a x off) s = .raise .addressMisalignment :=
  if_pos (misaligned_iff.2 unaligned)

end jmp

section bne

variable {a b : RegIdx} {off : Half} {s : State}

/-- BNE's effect on equal operands. -/
theorem effectOf_bne_of_eq (equal : s.reg a = s.reg b) : effectOf (.bne a b off) s = .keep :=
  if_neg (mt notEqual_iff.1 (not_not_intro equal))

/-- BNE's effect on unequal operands is decided by the test on the second one. -/
theorem effectOf_bne_of_ne (differ : s.reg a ≠ s.reg b) :
    effectOf (.bne a b off) s =
      if misaligned (s.reg b) then .raise .addressMisalignment else .jump (s.pc + sext32 off) :=
  if_pos (notEqual_iff.2 differ)

/-- BNE's effect on unequal operands, the second one aligned. -/
theorem effectOf_bne_of_aligned (differ : s.reg a ≠ s.reg b) (aligned : (s.reg b).toNat % 4 = 0) :
    effectOf (.bne a b off) s = .jump (s.pc + sext32 off) :=
  (effectOf_bne_of_ne differ).trans (if_neg (mt misaligned_iff.1 (not_not_intro aligned)))

/-- BNE's effect on unequal operands, the second one not aligned. -/
theorem effectOf_bne_of_unaligned (differ : s.reg a ≠ s.reg b) (unaligned : (s.reg b).toNat % 4 ≠ 0) :
    effectOf (.bne a b off) s = .raise .addressMisalignment :=
  (effectOf_bne_of_ne differ).trans (if_pos (misaligned_iff.2 unaligned))

end bne

/-- Settles O17: the effect is a jump to the target, and the cycle a pc write. -/
theorem jmpContinuesFourAfterTarget : Obligations.JmpContinuesFourAfterTarget := fun _ _ _ s aligned =>
  ⟨_, exec_of_effectOf_jump (effectOf_jmp_of_aligned aligned), s.setPc_pc _, s.setPc_frame _⟩

/-- Settles O18: the effect is to raise, and a halt writes nothing else. -/
theorem jmpToUnalignedTargetHalts : Obligations.JmpToUnalignedTargetHalts := fun _ _ _ _ unaligned =>
  ⟨_, exec_of_effectOf_raise (effectOf_jmp_of_unaligned unaligned), halt_haltedFrom ..⟩

/-- Settles O19: the effect is a jump to the pc-relative target, whose own alignment is not tested. -/
theorem bneTakenBranches : Obligations.BneTakenBranches := fun _ _ _ s differ aligned =>
  ⟨_, exec_of_effectOf_jump (effectOf_bne_of_aligned differ aligned), s.setPc_pc _, s.setPc_frame _⟩

/-- Settles O20: the effect is to keep the state, so the cycle only advances. -/
theorem bneEqualFallsThrough : Obligations.BneEqualFallsThrough := fun _ _ _ s equal =>
  ⟨_, exec_of_effectOf_keep (effectOf_bne_of_eq equal), s.advancePc_pc, s.setPc_frame _⟩

/-- Settles O21: the effect is to raise, by the test on the second operand. -/
theorem bneUnalignedOperandHalts : Obligations.BneUnalignedOperandHalts := fun _ _ _ _ differ unaligned =>
  ⟨_, exec_of_effectOf_raise (effectOf_bne_of_unaligned differ unaligned), halt_haltedFrom ..⟩

end Sys2Proof.Machine
end

section
/-! ### The loads and stores (43_load_store.md) -/

namespace Sys2Proof.Machine

/-- An instruction whose effect is a store completes with that write. -/
theorem exec_of_effectOf_store {i : Instr} {s : State} {a v : Word} (h : effectOf i s = .store a v) :
    exec i s = .next (s.write32 a v).advancePc := by
  rw [exec_eq_settle, h]; rfl

/-- The written register holds the value once the pc has advanced. -/
theorem State.advancePc_setReg_same (s : State) (d : RegIdx) (v : Word) : (s.setReg d v).advancePc.reg d = v := by
  simp [reg_setReg]

/-- A register write with the advance keeps every other register, the bytes and the halt state. -/
theorem State.advancePc_setReg_frame (s : State) (d : RegIdx) (v : Word) :
    (s.setReg d v).advancePc.pc = s.pc + 4 ∧ RegsKeptExcept [d] s (s.setReg d v).advancePc ∧
      BytesKept s (s.setReg d v).advancePc ∧ HaltStateKept s (s.setReg d v).advancePc := by
  refine ⟨rfl, fun r other => ?_, ⟨rfl, fun _ => rfl⟩, rfl, rfl, rfl⟩
  rw [advancePc_reg, reg_setReg, if_neg (mt List.mem_singleton.2 other)]

/-- A write out of bounds keeps the bytes. -/
theorem State.bytesKept_write32_outOfBounds {s : State} {a : Word} (h : s.memLen < a.toNat + 4) (v : Word) :
    BytesKept s (s.write32 a v) := by
  rw [write32_outOfBounds h]
  exact ⟨rfl, fun _ => rfl⟩

/-- Settles O22: LW's effect is to write the word read to its destination, and the read is 0 out of bounds. -/
theorem lwLoadsWord : Obligations.LwLoadsWord := by
  intro a d x s
  have loaded := s.advancePc_setReg_same d (s.read32 (s.reg a))
  exact ⟨_, exec_of_effectOf_writeReg rfl, loaded,
    fun outside => loaded.trans (State.read32_outOfBounds outside), s.advancePc_setReg_frame d _⟩

/-- Settles O23: SW's effect is a word write, whose bytes and frame the memory engine's rules give; the advance
writes the pc alone. -/
theorem swStoresWord : Obligations.SwStoresWord := fun v a _ s canonical =>
  ⟨_, exec_of_effectOf_store rfl,
    fun inside => ⟨State.bytesKeptOutside_write32 canonical inside (s.reg v),
      fun _ hk => State.readByte_write32_add canonical inside (s.reg v) hk⟩,
    fun outside => State.bytesKept_write32_outOfBounds outside (s.reg v),
    congrArg (· + 4) (State.write32_pc ..), State.regsKept_write32 s (s.reg a) (s.reg v),
    State.haltStateKept_write32 s (s.reg a) (s.reg v)⟩

end Sys2Proof.Machine
end

section
/-! ### The immediate loads (44_immediate.md) -/

namespace Sys2Proof.Machine

/-! Each insert replaces one half of its word and keeps the other. -/

theorem extractLsb'_low_insertLow16 (w : Word) (m : Half) : (insertLow16 w m).extractLsb' 0 16 = m := by
  ext k hk
  simp [getLsbD_insertLow16 w m (show k < 32 by omega), hk]

theorem extractLsb'_high_insertLow16 (w : Word) (m : Half) :
    (insertLow16 w m).extractLsb' 16 16 = w.extractLsb' 16 16 := by
  ext k hk
  simp [getLsbD_insertLow16 w m (show 16 + k < 32 by omega)]

theorem extractLsb'_high_insertHigh16 (w : Word) (m : Half) : (insertHigh16 w m).extractLsb' 16 16 = m := by
  ext k hk
  simp [getLsbD_insertHigh16 w m (show 16 + k < 32 by omega), hk]

theorem extractLsb'_low_insertHigh16 (w : Word) (m : Half) :
    (insertHigh16 w m).extractLsb' 0 16 = w.extractLsb' 0 16 := by
  ext k hk
  simp [getLsbD_insertHigh16 w m (show k < 32 by omega), hk]

/-- Two words with the same halves are the same word. -/
theorem word_eq_of_halves {w v : Word} (low : w.extractLsb' 0 16 = v.extractLsb' 0 16)
    (high : w.extractLsb' 16 16 = v.extractLsb' 16 16) : w = v := by
  have joined (x : Word) : x.extractLsb' 16 16 ++ x.extractLsb' 0 16 = x :=
    BitVec.extractLsb'_append_extractLsb' (w := 16) (len := 16)
  calc
    w = w.extractLsb' 16 16 ++ w.extractLsb' 0 16 := (joined w).symm
    _ = v.extractLsb' 16 16 ++ v.extractLsb' 0 16 := by rw [low, high]
    _ = v := joined v

/-- The halves of a constant, the low one put in first, make the constant. -/
theorem insertHigh16_insertLow16_halves (w c : Word) :
    insertHigh16 (insertLow16 w (c.extractLsb' 0 16)) (c.extractLsb' 16 16) = c :=
  word_eq_of_halves
    ((extractLsb'_low_insertHigh16 ..).trans (extractLsb'_low_insertLow16 ..)) (extractLsb'_high_insertHigh16 ..)

/-- The halves of a constant, the high one put in first, make the constant. -/
theorem insertLow16_insertHigh16_halves (w c : Word) :
    insertLow16 (insertHigh16 w (c.extractLsb' 16 16)) (c.extractLsb' 0 16) = c :=
  word_eq_of_halves
    (extractLsb'_low_insertLow16 ..) ((extractLsb'_high_insertLow16 ..).trans (extractLsb'_high_insertHigh16 ..))

/-! What each of two changes keeps, both together keep. -/

theorem RegsKeptExcept.trans {ds : List RegIdx} {s t u : State} (first : RegsKeptExcept ds s t)
    (second : RegsKeptExcept ds t u) : RegsKeptExcept ds s u :=
  fun r other => (second r other).trans (first r other)

theorem BytesKept.trans {s t u : State} (first : BytesKept s t) (second : BytesKept t u) : BytesKept s u :=
  have ⟨len₁, bytes₁⟩ := first
  have ⟨len₂, bytes₂⟩ := second
  ⟨len₂.trans len₁, fun b => (bytes₂ b).trans (bytes₁ b)⟩

theorem HaltStateKept.trans {s t u : State} (first : HaltStateKept s t) (second : HaltStateKept t u) :
    HaltStateKept s u :=
  have ⟨run₁, cause₁, instr₁⟩ := first
  have ⟨run₂, cause₂, instr₂⟩ := second
  ⟨run₂.trans run₁, cause₂.trans cause₁, instr₂.trans instr₁⟩

/-- Two instructions whose effect is to write the same register complete: the register holds what the second writes,
and the two cycles keep everything else but the pc. -/
theorem execTwo_of_effectOf_writeReg {i j : Instr} {s : State} {d : RegIdx} {v w : Word}
    (hi : effectOf i s = .writeReg d v) (hj : effectOf j (s.setReg d v).advancePc = .writeReg d w) :
    ∃ t, execTwo i j s = .next t ∧ t.reg d = w ∧ t.pc = s.pc + 8 ∧
      RegsKeptExcept [d] s t ∧ BytesKept s t ∧ HaltStateKept s t := by
  obtain ⟨pc₁, regs₁, bytes₁, halt₁⟩ := s.advancePc_setReg_frame d v
  obtain ⟨pc₂, regs₂, bytes₂, halt₂⟩ := (s.setReg d v).advancePc.advancePc_setReg_frame d w
  refine ⟨_, ?_, State.advancePc_setReg_same _ d w, ?_, regs₁.trans regs₂, bytes₁.trans bytes₂, halt₁.trans halt₂⟩
  · rw [execTwo, exec_of_effectOf_writeReg hi]
    exact exec_of_effectOf_writeReg hj
  · rw [pc₂, pc₁, BitVec.add_assoc]
    rfl

/-- Settles O31: both instructions write the register, and the second insert completes the constant. -/
theorem li32EitherOrderBuildsConstant : Obligations.Li32EitherOrderBuildsConstant := by
  intro a c s i j order
  simp only [li32, List.cons.injEq, and_true] at order
  obtain ⟨rfl, rfl⟩ | ⟨rfl, rfl⟩ := order
  · refine execTwo_of_effectOf_writeReg rfl ?_
    rw [effectOf, State.advancePc_setReg_same, insertHigh16_insertLow16_halves]
  · refine execTwo_of_effectOf_writeReg rfl ?_
    rw [effectOf, State.advancePc_setReg_same, insertLow16_insertHigh16_halves]

/-- Settles O24: LHI's effect is to write the low insert of its register. -/
theorem lhiReplacesLowHalf : Obligations.LhiReplacesLowHalf := by
  intro a x m s
  have written := s.advancePc_setReg_same a (insertLow16 (s.reg a) m)
  refine ⟨_, exec_of_effectOf_writeReg rfl, ?_, ?_, s.advancePc_setReg_frame a _⟩
  · rw [written, extractLsb'_low_insertLow16]
  · rw [written, extractLsb'_high_insertLow16]

/-- Settles O25: LUHI's effect is to write the high insert of its register. -/
theorem luhiReplacesHighHalf : Obligations.LuhiReplacesHighHalf := by
  intro a x m s
  have written := s.advancePc_setReg_same a (insertHigh16 (s.reg a) m)
  refine ⟨_, exec_of_effectOf_writeReg rfl, ?_, ?_, s.advancePc_setReg_frame a _⟩
  · rw [written, extractLsb'_high_insertHigh16]
  · rw [written, extractLsb'_low_insertHigh16]

end Sys2Proof.Machine
end

section
/-! ### The register operations (45_register.md) -/

namespace Sys2Proof.Machine

/-- An instruction whose effect is to refuse answers no next state. -/
theorem exec_of_effectOf_refuse {i : Instr} {s : State} {q : Refusal} (h : effectOf i s = .refuse q) :
    exec i s = .refused q := by
  rw [exec_eq_settle, h]; rfl

/-- A destination field below 32 names the register with its number. -/
theorem destReg_eq_ofNat {d : BitVec 8} (named : d.toNat < 32) : destReg d = some (BitVec.ofNat 5 d.toNat) :=
  destReg_of_toNat_eq ((BitVec.toNat_ofNat ..).trans (Nat.mod_eq_of_lt named)).symm

/-- Exchanging ADD's sources leaves its effect as it is: the same destination, or the same refusal (R94). -/
theorem effectOf_add_comm (a b : RegIdx) (x d : BitVec 8) (s : State) :
    effectOf (.add a b x d) s = effectOf (.add b a x d) s := by
  have sum : add32 (s.reg a) (s.reg b) = add32 (s.reg b) (s.reg a) := BitVec.add_comm ..
  rw [effectOf, effectOf, sum]

/-- Settles O26: MV's effect is to write its source's value to its destination. -/
theorem mvCopiesRegister : Obligations.MvCopiesRegister := fun a d _ s =>
  ⟨_, exec_of_effectOf_writeReg rfl, s.advancePc_setReg_same d (s.reg a), s.advancePc_setReg_frame d _⟩

/-- Settles O27: with a destination that exists, ADD's effect is to write the sum of the words, which wraps. -/
theorem addWrapsModuloWord : Obligations.AddWrapsModuloWord := by
  intro a b x d s named r
  have written : effectOf (.add a b x d) s = .writeReg r (add32 (s.reg a) (s.reg b)) := by
    rw [effectOf, destReg_eq_ofNat named]
  refine ⟨_, exec_of_effectOf_writeReg written, ?_, s.advancePc_setReg_frame r _⟩
  rw [State.advancePc_setReg_same, add32, BitVec.toNat_add]

/-- Settles O28: without a destination that exists, ADD's effect is the refusal. -/
theorem addRefusesMissingRegister : Obligations.AddRefusesMissingRegister := fun a b x d s missing =>
  exec_of_effectOf_refuse (by rw [effectOf, destReg_of_ge missing])

/-- Settles O29: exchanging the sources leaves ADD's effect as it is, and neither effect it can have latches the
instruction's fields, in which the exchange would show. -/
theorem addCommutes : Obligations.AddCommutes := by
  intro a b x d s
  have swapped := effectOf_add_comm b a x d s
  rcases effectOf_add_cases a b x d s with ⟨_, -, written⟩ | ⟨-, refused⟩
  · rw [exec_of_effectOf_writeReg written, exec_of_effectOf_writeReg (swapped.trans written)]
  · rw [exec_of_effectOf_refuse refused, exec_of_effectOf_refuse (swapped.trans refused)]

end Sys2Proof.Machine
end

section
/-! ### What raises each cause, and how a cycle ends (60_exceptions.md R99 to R109) -/

namespace Sys2Proof.Machine

/-- A word raises JMP's misalignment where it decodes to a JMP that fails its test (42_control.md R80). -/
theorem jmp_raises_iff {s : State} {w : Word} :
    ((decodeFields w).op = 1 ∧
        misaligned (jmpTarget (s.reg (decodeFields w).ra1) (decodeFields w).off) = true) ↔
      ∃ a x off, decode w = .ok (.jmp a x off) ∧ (s.reg a + sext32 off).toNat % 4 ≠ 0 := by
  constructor
  · rintro ⟨op, bad⟩
    exact ⟨_, _, _, decode_jmp (decodeFields_of_op op), misaligned_iff.1 bad⟩
  · rintro ⟨a, x, off, decoded, bad⟩
    rw [← fields_of_decode decoded, Laws.LatchedFields.jmp a x off]
    exact ⟨rfl, misaligned_iff.2 bad⟩

/-- A word raises BNE's misalignment where it decodes to a BNE that fails its test (42_control.md R81). -/
theorem bne_raises_iff {s : State} {w : Word} :
    ((decodeFields w).op = 6 ∧ s.reg (decodeFields w).ra1 ≠ s.reg (decodeFields w).ra2 ∧
        misaligned (s.reg (decodeFields w).ra2) = true) ↔
      ∃ a b off, decode w = .ok (.bne a b off) ∧ s.reg a ≠ s.reg b ∧ (s.reg b).toNat % 4 ≠ 0 := by
  constructor
  · rintro ⟨op, differ, bad⟩
    exact ⟨_, _, _, decode_bne (decodeFields_of_op op), differ, misaligned_iff.1 bad⟩
  · rintro ⟨a, b, off, decoded, differ, bad⟩
    rw [← fields_of_decode decoded, Laws.LatchedFields.bne a b off]
    exact ⟨rfl, differ, misaligned_iff.2 bad⟩

/-- The words of opcode 9 are those that decode to BRK. -/
theorem op_eq_brk_iff {w : Word} : (decodeFields w).op = 9 ↔ ∃ x, decode w = .ok (.brk x) := by
  constructor
  · intro op
    exact ⟨_, decode_brk (decodeFields_of_op op)⟩
  · rintro ⟨x, decoded⟩
    rw [← fields_of_decode decoded, Laws.LatchedFields.brk x]

/-- A running machine whose fetched instruction raises halts with the fetched fields latched. -/
theorem step_of_effectOf_raise {i : Instr} {s : State} {c : HaltCause} (running : s.runState = .running)
    (decoded : decode s.fetch = .ok i) (raised : effectOf i s = .raise c) :
    step s = .next (s.halt c (decodeFields s.fetch)) := by
  rw [step_of_decode_ok running decoded, exec_of_effectOf_raise raised, fields_of_decode decoded]

/-- A running machine halts on a cause that the table gives the fetched instruction (60_exceptions.md R104). -/
theorem step_of_causeHolds {s : State} {c : HaltCause} (running : s.runState = .running)
    (h : CauseHolds c (decodeFields s.fetch) s) : step s = .next (s.halt c (decodeFields s.fetch)) := by
  cases c with
  | unknownOpcode => exact step_of_decode_error running (decode_of_op_ge h)
  | addressMisalignment =>
    rcases h with jmp | bne
    · obtain ⟨a, x, off, decoded, bad⟩ := jmp_raises_iff.1 jmp
      exact step_of_effectOf_raise running decoded (effectOf_jmp_of_unaligned bad)
    · obtain ⟨a, b, off, decoded, differ, bad⟩ := bne_raises_iff.1 bne
      exact step_of_effectOf_raise running decoded (effectOf_bne_of_unaligned differ bad)
  | breakpointHit =>
    obtain ⟨x, decoded⟩ := op_eq_brk_iff.1 h
    exact step_of_effectOf_raise running decoded rfl

/-- A step is taken while running, and either halts on a cause that the fetched instruction raises or keeps the halt
state. -/
theorem step_halts_or_keeps {s t : State} (h : step s = .next t) :
    s.runState = .running ∧
      ((∃ c, CauseHolds c (decodeFields s.fetch) s ∧ t = s.halt c (decodeFields s.fetch)) ∨ HaltStateKept s t) := by
  obtain ⟨running, ⟨i, decoded, he⟩ | ⟨e, unknown, rfl⟩⟩ := step_next h
  · refine ⟨running, ?_⟩
    have ends := exec_ends he
    rw [fields_of_decode decoded] at ends
    by_cases raised : ∃ c, effectOf i s = .raise c
    · obtain ⟨c, raised⟩ := raised
      have cause := causeHolds_of_effectOf_raise raised
      rw [fields_of_decode decoded] at cause
      rw [raised] at ends
      cases ends
      exact .inl ⟨c, cause, rfl⟩
    · exact .inr (ends.haltStateKept (not_exists.1 raised))
  · exact ⟨running, .inl ⟨.unknownOpcode, op_ge_of_decode_error unknown, rfl⟩⟩

/-- A step from where a cause holds is the halt on that cause. -/
theorem eq_halt_of_causeHolds {s t : State} {c : HaltCause} (h : step s = .next t)
    (cause : CauseHolds c (decodeFields s.fetch) s) : t = s.halt c (decodeFields s.fetch) := by
  obtain ⟨running, -⟩ := step_halts_or_keeps h
  rw [step_of_causeHolds running cause] at h
  cases h
  rfl

/-- A running machine that meets the invariant holds no cause. -/
theorem State.Inv.haltCause_of_running {s : State} (inv : s.Inv) (running : s.runState = .running) :
    s.haltCause = none := by
  have report := inv.reportTrue
  simp only [HaltReportTrue, running] at report
  obtain ⟨noCause, -⟩ := report
  exact noCause

/-! ### Where there is no step (30_encoding.md R73) -/

/-- HALTED has no step. -/
theorem step_of_halted {s : State} (halted : s.runState = .halted) : step s = .fault .halted := by
  simp only [step, halted]

/-- Only an ADD whose destination field names no register is refused (45_register.md R93). -/
theorem add_of_effectOf_refuse {i : Instr} {s : State} {q : Refusal} (h : effectOf i s = .refuse q) :
    ∃ a b x d, i = .add a b x d ∧ 32 ≤ d.toNat := by
  cases i with
  | jmp a x off => rcases effectOf_jmp_cases a x off s with ⟨_, he⟩ | ⟨_, he⟩ <;> cases he.symm.trans h
  | bne a b off => rcases effectOf_bne_cases a b off s with he | ⟨_, _, he⟩ | he <;> cases he.symm.trans h
  | add a b x d =>
    refine ⟨a, b, x, d, rfl, Nat.le_of_not_lt fun named => ?_⟩
    rw [effectOf, destReg_of_lt named] at h
    cases h
  | _ => cases h

/-- An instruction that is not refused completes or halts. -/
theorem exec_next_or_refused (i : Instr) (s : State) :
    (∃ t, exec i s = .next t) ∨ ∃ q, effectOf i s = .refuse q := by
  rw [exec_eq_settle]
  cases effectOf i s with
  | refuse q => exact .inr ⟨q, rfl⟩
  | _ => exact .inl ⟨_, rfl⟩

/-- A running machine at an ADD that names no register is refused. -/
theorem step_of_fetchesRefusedAdd {s : State} (running : s.runState = .running) (h : FetchesRefusedAdd s) :
    step s = .refused .undefinedRegisterIndex := by
  obtain ⟨a, b, x, d, decoded, missing⟩ := h
  exact (step_of_decode_ok running decoded).trans (addRefusesMissingRegister a b x d s missing)

/-- A running machine that is not at such an ADD has a next state. -/
theorem exists_step_of_not_fetchesRefusedAdd {s : State} (running : s.runState = .running)
    (h : ¬ FetchesRefusedAdd s) : ∃ t, step s = .next t := by
  cases decoded : decode s.fetch with
  | ok i =>
    rw [step_of_decode_ok running decoded]
    refine (exec_next_or_refused i s).resolve_right ?_
    rintro ⟨q, refused⟩
    obtain ⟨a, b, x, d, rfl, missing⟩ := add_of_effectOf_refuse refused
    exact h ⟨a, b, x, d, decoded, missing⟩
  | error e => exact ⟨_, step_of_decode_error running decoded⟩

/-- Every state has exactly one of the three outcomes, by its run state and what it fetches. -/
theorem step_trichotomy (s : State) :
    (s.runState = .halted ∧ step s = .fault .halted) ∨
      (s.runState = .running ∧ FetchesRefusedAdd s ∧ step s = .refused .undefinedRegisterIndex) ∨
      (s.runState = .running ∧ ¬ FetchesRefusedAdd s ∧ ∃ t, step s = .next t) := by
  cases running : s.runState with
  | halted => exact .inl ⟨rfl, step_of_halted running⟩
  | running =>
    by_cases refused : FetchesRefusedAdd s
    · exact .inr (.inl ⟨rfl, refused, step_of_fetchesRefusedAdd running refused⟩)
    · exact .inr (.inr ⟨rfl, refused, exists_step_of_not_fetchesRefusedAdd running refused⟩)

/-- Settles O36: each side of the three equivalences is decided by which of the three outcomes the state has. -/
theorem noStepExactlyAtHaltOrRefusedAdd : Obligations.NoStepExactlyAtHaltOrRefusedAdd := by
  intro s
  rcases step_trichotomy s with ⟨halted, h⟩ | ⟨running, refused, h⟩ | ⟨running, goesOn, t, h⟩
  · exact ⟨⟨fun _ => halted, fun _ => ⟨_, h⟩⟩, by simp [halted, h], by simp [halted, h]⟩
  · simp [running, refused, h]
  · simp [running, goesOn, h]

/-! ### The halts (60_exceptions.md R99 to R108) -/

/-- Settles O38: a step that ends in HALTED has not kept the run state, so it is a halt, which writes nothing else. -/
theorem everyHaltIsPrecise : Obligations.EveryHaltIsPrecise := by
  intro s t h halted
  obtain ⟨running, ⟨c, -, rfl⟩ | ⟨runState, -⟩⟩ := step_halts_or_keeps h
  · exact ⟨c, halt_haltedFrom ..⟩
  · cases halted.symm.trans (runState.trans running)

/-- Settles O41: where a cause holds the step is the halt on it; where none holds the step keeps the halt state, which
the invariant says is empty. -/
theorem engineHaltsExactlyOnTableCauses : Obligations.EngineHaltsExactlyOnTableCauses := by
  intro s t inv h
  obtain ⟨running, ends⟩ := step_halts_or_keeps h
  refine ⟨fun c => ⟨fun held => ?_, fun cause => ?_⟩, fun runs c cause => ?_, fun noCause => ?_⟩
  · obtain ⟨d, cause, rfl⟩ | ⟨-, kept, -⟩ := ends
    · cases held
      exact cause
    · cases held.symm.trans (kept.trans (inv.haltCause_of_running running))
  · rw [eq_halt_of_causeHolds h cause, State.halt_haltCause]
  · rw [eq_halt_of_causeHolds h cause] at runs
    cases runs
  · obtain ⟨c, cause, -⟩ | ⟨runState, -⟩ := ends
    · exact absurd cause (noCause c)
    · exact runState.trans running

/-- Settles O39: the table's condition, with JMP's and BNE's words spelled out; where it holds the step is the halt on
it. -/
theorem addressMisalignmentRaisedExactly : Obligations.AddressMisalignmentRaisedExactly := by
  intro s t inv h
  obtain ⟨byTable, -⟩ := engineHaltsExactlyOnTableCauses s t inv h
  refine ⟨(byTable _).trans (or_congr jmp_raises_iff bne_raises_iff), fun held => ?_⟩
  obtain rfl := eq_halt_of_causeHolds h ((byTable _).1 held)
  exact ⟨rfl, fun _ _ => rfl, rfl⟩

/-- Settles O40: the table gives this cause to opcode 9, the words of BRK. -/
theorem breakpointRaisedExactlyByBrk : Obligations.BreakpointRaisedExactlyByBrk := by
  intro s t inv h
  obtain ⟨byTable, -⟩ := engineHaltsExactlyOnTableCauses s t inv h
  exact (byTable _).trans op_eq_brk_iff

/-- Settles O46: a run cannot leave a halted state, which has no step. -/
theorem haltedStateIsFinal : Obligations.HaltedStateIsFinal := by
  intro s t halted run
  refine run.keeps (Q := fun u => u = s) (fun {u v} _ same h => ?_) rfl
  subst same
  rw [step_of_halted halted] at h
  cases h

/-! ### What the host reads at the end (60_exceptions.md R104, R117 to R120) -/

/-- The invariant holds along a run. -/
theorem State.Inv.of_reaches {s t : State} (inv : s.Inv) (run : Reaches s t) : t.Inv :=
  run.keeps (fun _ inv h => stepKeepsInvariant _ _ inv h) inv

/-- A halted machine that meets the invariant holds a cause. -/
theorem State.Inv.exists_haltCause {s : State} (inv : s.Inv) (halted : s.runState = .halted) :
    ∃ c, s.haltCause = some c := by
  have report := inv.reportTrue
  simp only [HaltReportTrue, halted] at report
  obtain ⟨-, c, cause, -⟩ := report
  exact ⟨c, cause⟩

theorem State.exitStatus_of_running {s : State} (running : s.runState = .running) : s.exitStatus = none := by
  rw [exitStatus, running]

theorem State.exitStatus_of_halted {s : State} (halted : s.runState = .halted) : s.exitStatus = some (-1) := by
  rw [exitStatus, halted]
  rfl

/-- Settles O48: the status is read off the run state, and the invariant gives a halted machine its cause. -/
theorem everyEndHasExitStatusMinusOne : Obligations.EveryEndHasExitStatusMinusOne := by
  intro s t inv run
  cases ended : t.runState with
  | running => simp [State.exitStatus_of_running ended]
  | halted =>
    obtain ⟨c, cause⟩ := (inv.of_reaches run).exists_haltCause ended
    have oneOfThree : c = .unknownOpcode ∨ c = .addressMisalignment ∨ c = .breakpointHit := by cases c <;> simp
    simpa [State.exitStatus_of_halted ended, cause] using oneOfThree

/-- The halt cause that a code stands for; codes above 3 stand for none. -/
def haltCauseOfCode : Nat → Option HaltCause
  | 1 => some .unknownOpcode
  | 2 => some .addressMisalignment
  | 3 => some .breakpointHit
  | _ => none

/-- A cause is found again from its code. -/
theorem haltCauseOfCode_haltCode : Function.LeftInverse haltCauseOfCode haltCode
  | none | some .unknownOpcode | some .addressMisalignment | some .breakpointHit => rfl

/-- Settles O42: the four codes by the table, and different ones because a code can be read back. -/
theorem haltCodesInOrder : Obligations.HaltCodesInOrder :=
  ⟨rfl, rfl, rfl, rfl, fun _ _ same => haltCauseOfCode_haltCode.injective same⟩

/-- Settles O49: the final state is read off the run state, and holds the state's own fields. -/
theorem finalStateExactlyAtHalt : Obligations.FinalStateExactlyAtHalt := by
  intro s
  refine ⟨fun running => ?_, fun halted => ?_⟩
  · rw [State.finalState, running]
  · rw [State.finalState, halted]
    exact ⟨_, rfl, rfl, rfl, rfl, rfl, rfl⟩

end Sys2Proof.Machine
end

section
/-! ### The launch (70_reset_and_hazards.md R123, R124) -/

namespace Sys2Proof.Machine

/-- Bytes written into zeroed memory, read at any byte. -/
theorem Memory.readByte_writeBytes_nil (a b : Nat) (bs : List Byte) :
    (Memory.writeBytes [] a bs).readByte b = if a ≤ b then bs.getD (b - a) 0 else 0 :=
  readByte_writeBytes ⟨.nil, by simp⟩ a b bs

/-- The word where the bytes written into zeroed memory begin is their first four. -/
theorem Memory.readWord_writeBytes_nil (a : Nat) (b0 b1 b2 b3 : Byte) (rest : List Byte) :
    (Memory.writeBytes [] a (b0 :: b1 :: b2 :: b3 :: rest)).readWord a = wordOfBytes b0 b1 b2 b3 := by
  simp [readWord, readByte_writeBytes_nil]

/-- Settles O57: memory after the launch is the image written into zeroed memory, and its first word is in bounds. -/
theorem launchLoadsImageVerbatim : Obligations.LaunchLoadsImageVerbatim := by
  intro memLen regInit image fits addressable
  have byte (b : Nat) := Memory.readByte_writeBytes_nil 0x800 b image
  refine ⟨_, if_pos ⟨fits, addressable⟩, fun k hk => (byte _).trans ?_, fun b outside => (byte b).trans ?_,
    rfl, rfl, rfl, rfl, ?_⟩
  · simp [hk]
  · rcases outside with below | above
    · exact if_neg (Nat.not_le_of_lt below)
    · rw [if_pos (by omega), List.getD_eq_default _ _ (by omega)]
  · rintro b0 b1 b2 b3 rest rfl
    refine (State.read32_inBounds ?_).trans (Memory.readWord_writeBytes_nil 0x800 b0 b1 b2 b3 rest)
    change 0x800 + 4 ≤ memLen
    simp only [List.length_cons] at fits
    omega

/-- Settles O58: each side of the launch premise broken refutes it. -/
theorem launchOutsidePremiseIsRefused : Obligations.LaunchOutsidePremiseIsRefused := by
  intro memLen regInit image outside
  refine if_neg ?_
  rintro ⟨fits, addressable⟩
  rcases outside with short | long
  · exact absurd fits (Nat.not_le_of_lt short)
  · exact absurd addressable (Nat.not_le_of_lt long)

end Sys2Proof.Machine
end

section
/-! ### Hazards: how long a store lasts, and that there is always a step (70_reset_and_hazards.md R128, R129, R135) -/

namespace Sys2Proof.Machine

/-- Settles O37: of the three outcomes of a state, the fault is the halted state's. -/
theorem runningEngineAlwaysSteps : Obligations.RunningEngineAlwaysSteps := by
  intro s running
  rcases step_trichotomy s with ⟨halted, -⟩ | ⟨-, refused, h⟩ | ⟨-, -, goesOn⟩
  · cases halted.symm.trans running
  · exact .inr ⟨h, refused⟩
  · exact .inl goesOn

/-- Every step keeps memory in canonical form. -/
theorem step_memCanonical {s t : State} (canonical : s.mem.wf) (h : step s = .next t) : t.mem.wf := by
  obtain ⟨-, ⟨i, -, he⟩ | ⟨e, -, rfl⟩⟩ := step_next h
  · exact (exec_ends he).memCanonical canonical
  · exact canonical

/-- A step that does not store into a byte keeps it. -/
theorem step_readByte_of_not_stored {b : Nat} {s t : State} (canonical : s.mem.wf) (unstored : ¬ StoresInto b 1 s)
    (h : step s = .next t) : t.mem.readByte b = s.mem.readByte b := by
  obtain ⟨-, ⟨i, decoded, he⟩ | ⟨e, -, rfl⟩⟩ := step_next h
  · by_cases store : ∃ v a x, i = .sw v a x
    · obtain ⟨v, a, x, rfl⟩ := store
      cases (exec_of_effectOf_store rfl).symm.trans he
      rw [State.advancePc_mem]
      rcases Nat.lt_or_ge s.memLen ((s.reg a).toNat + 4) with outside | inside
      · rw [State.write32_outOfBounds outside]
      · rw [State.readByte_write32 canonical inside, if_neg]
        rintro ⟨above, below⟩
        exact unstored ⟨v, a, x, decoded, decide_eq_true inside, by omega, below⟩
    · have notSw : ∀ v a x, i ≠ .sw v a x := fun v a x e => store ⟨v, a, x, e⟩
      obtain ⟨-, kept⟩ := onlyStoreChangesMemory i s t notSw he
      exact kept b
  · rfl

/-- A run of steps that do not store into a byte keeps it. -/
theorem ReachesWhile.readByte_eq {b : Nat} {s t : State} (run : ReachesWhile (fun w => ¬ StoresInto b 1 w) s t)
    (canonical : s.mem.wf) : t.mem.readByte b = s.mem.readByte b :=
  (run.keeps (Q := fun w => w.mem.wf ∧ w.mem.readByte b = s.mem.readByte b)
    (fun unstored ⟨hw, kept⟩ h => ⟨step_memCanonical hw h, (step_readByte_of_not_stored hw unstored h).trans kept⟩)
    ⟨canonical, rfl⟩).2

/-- The four bytes of a word in their places make it the word read there (20_memory.md R38). -/
theorem Memory.readWord_eq_of_bytes {m : Memory} {a : Nat} {v : Word}
    (bytes : ∀ k, k < 4 → m.readByte (a + k) = byteOfWord v k) : m.readWord a = v := by
  have lowest : m.readByte a = byteOfWord v 0 := bytes 0 (by decide)
  rw [readWord, lowest, bytes 1 (by decide), bytes 2 (by decide), bytes 3 (by decide), wordOfBytes_byteOfWord]

section store
variable {s u : State} {a v : Word} (canonical : s.mem.wf) (inside : a.toNat + 4 ≤ s.memLen)
include canonical inside

/-- A byte of a stored word stays in memory until it is stored into again. -/
theorem storedByte_lasts {k : Nat} (hk : k < 4)
    (run : ReachesWhile (fun w => ¬ StoresInto (a.toNat + k) 1 w) (s.write32 a v).advancePc u) :
    u.mem.readByte (a.toNat + k) = byteOfWord v k :=
  (run.readByte_eq (State.wf_write32 canonical a v)).trans (State.readByte_write32_add canonical inside v hk)

/-- A stored word is the word read at its address until one of its four bytes is stored into again. -/
theorem storedWord_lasts (run : ReachesWhile (fun w => ¬ StoresInto a.toNat 4 w) (s.write32 a v).advancePc u) :
    u.read32 a = v := by
  have size : u.memLen = s.memLen :=
    (memorySizeIsFixed _ u (run.mono fun _ _ => trivial)).trans (State.write32_memLen ..)
  rw [State.read32_inBounds (size ▸ inside)]
  exact Memory.readWord_eq_of_bytes fun k hk =>
    storedByte_lasts canonical inside hk (run.mono fun _ unstored into => unstored (into.of_byte hk))

/-- A fetch that covers a byte of a stored word has it in its place until it is stored into again. -/
theorem storedByte_fetched {j k : Nat} (hk : k < 4) (hj : j < 4)
    (run : ReachesWhile (fun w => ¬ StoresInto (a.toNat + k) 1 w) (s.write32 a v).advancePc u)
    (fetchInside : u.pc.toNat + 4 ≤ u.memLen) (same : u.pc.toNat + j = a.toNat + k) :
    byteOfWord u.fetch j = byteOfWord v k := by
  rw [State.fetch, State.read32_inBounds fetchInside, Memory.byteOfWord_readWord _ _ hj, same]
  exact storedByte_lasts canonical inside hk run

end store

/-- Settles O13: SW's effect is a store, whose word lasts, and LW loads the word at its address. -/
theorem loadAfterStoreReturnsStoredWord : Obligations.LoadAfterStoreReturnsStoredWord := by
  intro s v a x canonical inside
  refine ⟨_, exec_of_effectOf_store rfl, fun u run b d y sameAddress => ?_⟩
  obtain ⟨w, completes, loaded, -⟩ := lwLoadsWord b d y u
  refine ⟨w, completes, loaded.trans ?_⟩
  rw [sameAddress]
  exact storedWord_lasts canonical inside run

/-- Settles O14: a fetch reads the word at the pc, so it sees the stored word while that lasts, and its bytes each. -/
theorem storeSeenByFetch : Obligations.StoreSeenByFetch := by
  intro s v a x canonical inside
  have word {u : State} := storedWord_lasts (u := u) (v := s.reg v) canonical inside
  have fetched {u : State} (run) (here : u.pc = s.reg a) : u.fetch = s.reg v :=
    (congrArg u.read32 here).trans (word run)
  refine ⟨_, exec_of_effectOf_store rfl, fun next => fetched (.refl _) ?_, fun u run => ⟨word run, fetched run⟩,
    fun k hk u run j hj => storedByte_fetched canonical inside hk hj run⟩
  rw [State.advancePc_pc, State.write32_pc, next]

end Sys2Proof.Machine
end
